-- ==== Sys2Proof/Word.lean ====
section
/-! DEFINITION. The widths of the unit's buses: 64-bit words, 16-bit command words, the 3-bit function field. -/

namespace Sys2Proof

/-- A 64-bit word: the ARG and RESULT buses, a payload word, a staging register (00_scope.md R9). -/
abbrev Word := BitVec 64

/-- The 16-bit command word CMD of 30_encoding.md R55. -/
abbrev CmdWord := BitVec 16

/-- The 3-bit function field F = CMD[2:0] of 30_encoding.md R55. -/
abbrev FField := BitVec 3

/-- `signed64(v)` of 00_scope.md R12: a 64-bit value read as two's complement. -/
abbrev signed64 (v : Word) : Int := v.toInt

end Sys2Proof
end

