-- ==== Sys2Proof/Config.lean ====
section
/-! DEFINITION. The two parameters fixed when a unit is built (00_scope.md R8). -/

namespace Sys2Proof

/-- POPCNT_IMPL of 00_scope.md R8: which popcount circuit is built (40_popcount.md R68). -/
inductive PopcntImpl where
  | hw
  | swar
  deriving DecidableEq, Repr

/-- STATUS bit 8 of 10_state.md R32: 0 for HW, 1 for SWAR. -/
def PopcntImpl.bit : PopcntImpl → BitVec 1
  | .hw => 0#1
  | .swar => 1#1

/-- One build of the unit: MAX_BLOCKS and POPCNT_IMPL (00_scope.md R8). -/
structure Config where
  maxBlocks : Nat
  impl : PopcntImpl
  deriving DecidableEq, Repr

/-- The legal values of MAX_BLOCKS (00_scope.md R8). -/
abbrev Config.Legal (c : Config) : Prop := 1 ≤ c.maxBlocks ∧ c.maxBlocks ≤ 2 ^ 32

/-- The build `State.reset` is in: MAX_BLOCKS = 4 and HW, as the conventions of 95_test_vectors.md.
DESIGN CHOICE, unsafe, notes/assumptions/1.md: both parameters are open in the spec (R8, D12, D20), so a
statement about every build quantifies over `Config` and uses `State.resetOf`. -/
def Config.vectors : Config := { maxBlocks := 4, impl := .hw }

end Sys2Proof
end

