-- ==== Sys2Proof/Syntax.lean ====
section
/-! DEFINITION. The command set: one constructor of `Instr` per row of spec/opcode_table.json, the request
that carries a command, what the host can send, and the pseudo-instructions of 30_encoding.md R66. -/

namespace Sys2Proof

/-- The IBV-RU command set, version 1 (30_encoding.md R58), with operands as R59 and R60 read them.
A field operand (`j`, `count`, `k`) is the whole 3-bit F; WellFormed.lean says which values are legal. -/
inductive Instr where
  /-- NOP, 44_control.md R96. -/
  | nop
  /-- CLEAR, 42_vector_load.md R81. -/
  | clear
  /-- LOAD_BEGIN total_bits, 42_vector_load.md R82. -/
  | loadBegin (totalBits : Word)
  /-- LOAD_WORD word, 42_vector_load.md R83. -/
  | loadWord (word : Word)
  /-- POPCNT word, 40_popcount.md R72. -/
  | popcnt (word : Word)
  /-- STAGE_WORD j, word, 41_block_encoder.md R77. -/
  | stageWord (j : FField) (word : Word)
  /-- STAGE_OFFSET offset, 41_block_encoder.md R78. -/
  | stageOffset (offset : Word)
  /-- ENCODE count, 41_block_encoder.md R79. -/
  | encode (count : FField)
  /-- READ_ENC k, 41_block_encoder.md R80. -/
  | readEnc (k : FField)
  /-- LENGTH, 43_query.md R89. -/
  | length
  /-- ACCESS i, 43_query.md R90. -/
  | access (i : Word)
  /-- RANK1 i, 43_query.md R91. -/
  | rank1 (i : Word)
  /-- READ_BLOCK k, q, 43_query.md R92. -/
  | readBlock (k : FField) (q : Word)
  /-- STATUS, 44_control.md R97. -/
  | status
  deriving DecidableEq, Repr

/-- One request on the command port: a command word and an argument, taken together in one transfer
(30_encoding.md R55, R57). -/
structure Request where
  cmd : CmdWord
  arg : Word
  deriving DecidableEq, Repr

/-- What the host can do to the unit (70_reset_and_hazards.md R113, R114).
`reset cutOff` is the reset input of R109; `cutOff` is the request, if any, that the host had issued and not
seen answered when reset arrived. DEDUCED, notes/assumptions/8.md. -/
inductive HostInput where
  | request (r : Request)
  | reset (cutOff : Option Request)
  deriving DecidableEq, Repr

/-- The pseudo-instructions of 30_encoding.md R66. -/
inductive Pseudo where
  | create
  | destroy
  | countOnes (w : Word)
  | load (bits : Word) (words : List Word)
  | makeBlock (count : FField) (off w0 w1 w2 w3 : Word)
  deriving DecidableEq, Repr

end Sys2Proof
end

