-- ==== Sys2Proof/WellFormed.lean ====
section
/-! DEFINITION. Which field operands an instruction may carry (30_encoding.md R60, R62). -/

namespace Sys2Proof

/-- The legal F values of 30_encoding.md R60: STAGE_WORD takes j in 0..3; READ_ENC and READ_BLOCK take k in 0..4;
every F value is an ENCODE (R62 (c), R63), a bad count being the contract fault of R79. -/
def Instr.wellFormed : Instr → Bool
  | .nop => true
  | .clear => true
  | .loadBegin _ => true
  | .loadWord _ => true
  | .popcnt _ => true
  | .stageWord j _ => decide (j.toNat ≤ 3)
  | .stageOffset _ => true
  | .encode _ => true
  | .readEnc k => decide (k.toNat ≤ 4)
  | .length => true
  | .access _ => true
  | .rank1 _ => true
  | .readBlock k _ => decide (k.toNat ≤ 4)
  | .status => true

/-- The counts 41_block_encoder.md R73 and R75 allow `make_block`: 1 to 4. -/
def FField.legalCount (count : FField) : Bool := decide (1 ≤ count.toNat ∧ count.toNat ≤ 4)

end Sys2Proof
end

