-- ==== Sys2Proof/Decode.lean ====
section
/-! DEFINITION. The decoder of 30_encoding.md R63, total on every request and rejecting by name, and the encoder
written from the same tables (R55, R58, R59, R60). -/

namespace Sys2Proof

/-- OPC = CMD[15:8] (30_encoding.md R55). -/
def CmdWord.opc (c : CmdWord) : BitVec 8 := c.extractLsb' 8 8

/-- Z = CMD[7:3] (30_encoding.md R55). -/
def CmdWord.z (c : CmdWord) : BitVec 5 := c.extractLsb' 3 5

/-- F = CMD[2:0] (30_encoding.md R55). -/
def CmdWord.f (c : CmdWord) : FField := c.extractLsb' 0 3

/-- Why a command word is illegal: the three cases of 30_encoding.md R62. -/
inductive Illegal where
  /-- R62 (a): a reserved OPC. -/
  | reservedOpcode
  /-- R62 (b): Z ≠ 0. -/
  | reservedBits
  /-- R62 (c): F outside the legal set of R60. -/
  | functionField
  deriving DecidableEq, Repr

/-- What the decoder answers: one of the 14 commands, or ILLEGAL with its reason (30_encoding.md R63). -/
inductive Decoded where
  | instr (i : Instr)
  | illegal (why : Illegal)
  deriving DecidableEq, Repr

/-- An instruction if its F value is legal, else ILLEGAL (30_encoding.md R63). -/
def whenLegal (legal : Bool) (i : Instr) : Decoded :=
  if legal then .instr i else .illegal .functionField

/-- 30_encoding.md R63, line by line. -/
def decode (r : Request) : Decoded :=
  if r.cmd.z ≠ 0#5 then .illegal .reservedBits
  else
    let f := r.cmd.f
    match r.cmd.opc with
    | 0x00#8 => whenLegal (f == 0#3) .nop
    | 0x01#8 => whenLegal (f == 0#3) .clear
    | 0x02#8 => whenLegal (f == 0#3) (.loadBegin r.arg)
    | 0x03#8 => whenLegal (f == 0#3) (.loadWord r.arg)
    | 0x10#8 => whenLegal (f == 0#3) (.popcnt r.arg)
    | 0x11#8 => whenLegal (decide (f.toNat ≤ 3)) (.stageWord f r.arg)
    | 0x12#8 => whenLegal (f == 0#3) (.stageOffset r.arg)
    | 0x13#8 => .instr (.encode f)
    | 0x14#8 => whenLegal (decide (f.toNat ≤ 4)) (.readEnc f)
    | 0x20#8 => whenLegal (f == 0#3) .length
    | 0x21#8 => whenLegal (f == 0#3) (.access r.arg)
    | 0x22#8 => whenLegal (f == 0#3) (.rank1 r.arg)
    | 0x23#8 => whenLegal (decide (f.toNat ≤ 4)) (.readBlock f r.arg)
    | 0x30#8 => whenLegal (f == 0#3) .status
    | _ => .illegal .reservedOpcode

/-- The OPC of each command (30_encoding.md R58). -/
def Instr.opcode : Instr → BitVec 8
  | .nop => 0x00#8
  | .clear => 0x01#8
  | .loadBegin _ => 0x02#8
  | .loadWord _ => 0x03#8
  | .popcnt _ => 0x10#8
  | .stageWord _ _ => 0x11#8
  | .stageOffset _ => 0x12#8
  | .encode _ => 0x13#8
  | .readEnc _ => 0x14#8
  | .length => 0x20#8
  | .access _ => 0x21#8
  | .rank1 _ => 0x22#8
  | .readBlock _ _ => 0x23#8
  | .status => 0x30#8

/-- The F field of each command (30_encoding.md R58, R60). -/
def Instr.field : Instr → FField
  | .nop => 0#3
  | .clear => 0#3
  | .loadBegin _ => 0#3
  | .loadWord _ => 0#3
  | .popcnt _ => 0#3
  | .stageWord j _ => j
  | .stageOffset _ => 0#3
  | .encode count => count
  | .readEnc k => k
  | .length => 0#3
  | .access _ => 0#3
  | .rank1 _ => 0#3
  | .readBlock k _ => k
  | .status => 0#3

/-- The ARG of each command (30_encoding.md R59), 0 where the command ignores it (R61, R65). -/
def Instr.arg : Instr → Word
  | .nop => 0#64
  | .clear => 0#64
  | .loadBegin n => n
  | .loadWord w => w
  | .popcnt w => w
  | .stageWord _ w => w
  | .stageOffset off => off
  | .encode _ => 0#64
  | .readEnc _ => 0#64
  | .length => 0#64
  | .access i => i
  | .rank1 i => i
  | .readBlock _ q => q
  | .status => 0#64

/-- `CMD = (OPC << 8) | F` with Z = 0 (30_encoding.md R58). -/
def commandWord (opc : BitVec 8) (f : FField) : CmdWord := opc ++ 0#5 ++ f

/-- The request that carries an instruction: the words of 30_encoding.md R58 and R59. -/
def encode (i : Instr) : Request := { cmd := commandWord i.opcode i.field, arg := i.arg }

/-- A request laid out as one number: CMD is bits 15..0 and ARG bits 79..16, and every bit at `nbits` and above is 0.
DESIGN CHOICE, notes/assumptions/10.md: spec/opcode_table.json numbers CMD only. -/
def requestOfBits (nbits w : Nat) : Request :=
  let v := w % 2 ^ nbits
  { cmd := BitVec.ofNat 16 v, arg := BitVec.ofNat 64 (v / 2 ^ 16) }

/-- The instruction the decoder reads from a table row's word. -/
def decodeTableWord (nbits w : Nat) : Option Instr :=
  match decode (requestOfBits nbits w) with
  | .instr i => some i
  | .illegal _ => none

end Sys2Proof
end

