-- ==== Sys2Proof/Machine/State.lean ====
section
/-! DEFINITION. The unit's state: every register of 10_state.md, the block store, and three fields of the
model's own (the build's parameters, the host's next actions, the response port). -/

namespace Sys2Proof.Machine

/-- VSTATE, the lifecycle state (10_state.md R22). -/
inductive VState where
  | empty
  | loading
  | ready
  | faulted
  deriving DecidableEq, Repr

/-- The fault codes of 60_exceptions.md R99. Codes 4 to 15 are reserved and never raised, so they have no
constructor (DEDUCED, notes/assumptions/14.md). -/
inductive FaultCode where
  | none
  | illegalCommand
  | loadNotEmpty
  | encodeCount
  deriving DecidableEq, Repr

/-- The response statuses RSP of 30_encoding.md R56. Codes 5 to 7 are never produced, so they have no constructor
(DEDUCED, notes/assumptions/14.md). -/
inductive Rsp where
  | ok
  | errAlloc
  | errRange
  | errState
  | fault
  deriving DecidableEq, Repr

/-- A response: RSP and RESULT (30_encoding.md R56). -/
structure Response where
  rsp : Rsp
  result : Word
  deriving DecidableEq, Repr

/-- Four 64-bit registers: GBUF[0..3], S[0..3], or the four payload words of a record. -/
structure Quad where
  w0 : Word
  w1 : Word
  w2 : Word
  w3 : Word
  deriving DecidableEq, Repr

/-- A block record, by the fields of 10_state.md R33; `BlockRecord.toBits` of Machine/Ops.lean is its 320 bits. -/
structure BlockRecord where
  largeLo : BitVec 32
  largeHi : BitVec 8
  small0 : BitVec 8
  small1 : BitVec 8
  small2 : BitVec 8
  payload : Quad
  deriving DecidableEq, Repr

/-- The block store BS as (block index, record) pairs. Canonical form: block indices strictly rising
(`BlockStore.Wf`). An index that is not listed has no value, and reading it faults, as 92_eei_decisions.md D32 and
93_implementation_defined.md row 11 advise: safe, notes/assumptions/5.md. -/
abbrev BlockStore := List (Nat × BlockRecord)

/-- The canonical form of the block store: indices strictly rising. -/
abbrev BlockStore.Wf (bs : BlockStore) : Prop := (bs.map Prod.fst).Pairwise (· < ·)

/-- The state of the unit (10_state.md R22 to R35), and the model's own `cfg`, `inbox` and `response`. -/
structure State where
  /-- The build's parameters (00_scope.md R8). No step writes them. DESIGN CHOICE, notes/assumptions/1.md. -/
  cfg : Config
  /-- VSTATE (R22). -/
  vstate : VState
  /-- LEN (R23). -/
  len : BitVec 41
  /-- NB (R24). -/
  nb : BitVec 33
  /-- W_TOTAL (R25). -/
  wTotal : BitVec 35
  /-- W_DONE (R25). -/
  wDone : BitVec 35
  /-- GBUF[0..3] (R26). -/
  gbuf : Quad
  /-- GCNT (R26). -/
  gcnt : BitVec 3
  /-- BIDX (R27). -/
  bidx : BitVec 33
  /-- RUNNING (R28). -/
  running : BitVec 41
  /-- S[0..3] (R29). -/
  stage : Quad
  /-- SOFF (R29). -/
  soff : BitVec 40
  /-- ENC_OUT (R29). -/
  encOut : BlockRecord
  /-- FAULT_CODE (R30). -/
  faultCode : FaultCode
  /-- FAULT_CMD (R30). -/
  faultCmd : CmdWord
  /-- BS[0 .. MAX_BLOCKS-1] (R35). -/
  store : BlockStore
  /-- The host's next actions, first one first (R18). DESIGN CHOICE, notes/assumptions/2.md. -/
  inbox : List HostInput
  /-- The response port: the response of the last step, if that step served a request (30_encoding.md R56,
  10_state.md R21). DESIGN CHOICE, notes/assumptions/3.md. -/
  response : Option Response
  deriving DecidableEq, Repr

/-- Four registers holding 0. -/
def Quad.zero : Quad := { w0 := 0#64, w1 := 0#64, w2 := 0#64, w3 := 0#64 }

/-- The record whose 320 bits are all 0. -/
def BlockRecord.zero : BlockRecord :=
  { largeLo := 0#32, largeHi := 0#8, small0 := 0#8, small1 := 0#8, small2 := 0#8, payload := Quad.zero }

/-- The state after reset of a unit built with parameters `c` (10_state.md R38, 70_reset_and_hazards.md R109).
GBUF is unspecified there and is 0 here (DESIGN CHOICE, unsafe, notes/assumptions/4.md); BS is unspecified and lists
nothing here (safe, notes/assumptions/5.md). The host's inbox is empty and the port shows no response
(DESIGN CHOICE, notes/assumptions/2.md and 3.md). -/
def State.resetOf (c : Config) : State where
  cfg := c
  vstate := .empty
  len := 0#41
  nb := 0#33
  wTotal := 0#35
  wDone := 0#35
  gbuf := Quad.zero
  gcnt := 0#3
  bidx := 0#33
  running := 0#41
  stage := Quad.zero
  soff := 0#40
  encOut := BlockRecord.zero
  faultCode := .none
  faultCmd := 0#16
  store := []
  inbox := []
  response := none

/-- The machine right after reset, in the build of 95_test_vectors.md (DESIGN CHOICE, notes/assumptions/1.md). -/
def State.reset : State := State.resetOf Config.vectors

/-- Why a step stops. None of these is a behaviour of the unit: each names a place that does not exist or holds no
value, and no state that meets `State.Inv` reaches one. All three are safe. -/
inductive Fault where
  /-- Raised by a MemRead or MemWrite at a block index that is not below MAX_BLOCKS: BS has no such record
  (10_state.md R35, 20_memory.md R39). Safe, notes/assumptions/6.md. -/
  | noSuchBlock
  /-- Raised by a MemRead of a record that nothing has written since reset (10_state.md R35, 92_eei_decisions.md D32).
  Safe, notes/assumptions/5.md. -/
  | blockNotWritten
  /-- Raised by a LOAD_WORD when GCNT is above 3: there is no GBUF[GCNT] (10_state.md R26). Safe,
  notes/assumptions/6.md. -/
  | noSuchGroupRegister
  deriving DecidableEq, Repr

/-- Why a step has no meaning. -/
inductive Refusal where
  /-- Raised by an arm of `exec` whose instruction has no meaning yet, by its mnemonic. Safe. No arm raises it now. -/
  | notModelled (mnemonic : String)
  deriving DecidableEq, Repr

end Sys2Proof.Machine
end

