-- ==== Sys2Proof/Machine/Ops.lean ====
section
/-! DEFINITION. The named operations over registers, records, the block store and the ports, taking a fatal fault
(60_exceptions.md R102), and the dispatch order of a command (R101). -/

namespace Sys2Proof.Machine

/-- What a command or a step answers. -/
abbrev Result := Host.Outcome State Fault Refusal

/-- Go on from a next state; a stop stays a stop. -/
def andThen (r : Result) (k : State → Result) : Result :=
  match r with
  | .next s => k s
  | .fault e => .fault e
  | .refused e => .refused e

/-! ### Register groups and records -/

/-- Register m of four. -/
def Quad.get (q : Quad) : Fin 4 → Word
  | 0 => q.w0
  | 1 => q.w1
  | 2 => q.w2
  | 3 => q.w3

/-- Write register m of four. -/
def Quad.set (q : Quad) (m : Fin 4) (w : Word) : Quad :=
  match m with
  | 0 => { q with w0 := w }
  | 1 => { q with w1 := w }
  | 2 => { q with w2 := w }
  | 3 => { q with w3 := w }

/-- The 320 bits of a record, `REC[319:0]` of 10_state.md R33. -/
def BlockRecord.toBits (r : BlockRecord) : BitVec 320 :=
  r.payload.w3 ++ r.payload.w2 ++ r.payload.w1 ++ r.payload.w0 ++
    r.small2 ++ r.small1 ++ r.small0 ++ r.largeHi ++ r.largeLo

/-- `CHUNK(k) = REC[64k+63 : 64k]` (10_state.md R33, 20_memory.md R42). -/
def BlockRecord.chunk (r : BlockRecord) (k : Nat) : Word := r.toBits.extractLsb' (64 * k) 64

/-- `LARGE(rec) = (zext_40(large_hi) << 32) + large_lo` (10_state.md R33). -/
def BlockRecord.large (r : BlockRecord) : BitVec 40 :=
  (r.largeHi.setWidth 40 <<< 32) + r.largeLo.setWidth 40

/-- What RANK1 adds for the whole payload words before word `wi`: nothing for the first, else `small[wi - 1]`
(43_query.md R91). -/
def BlockRecord.countBefore (r : BlockRecord) : Fin 4 → Nat
  | 0 => 0
  | 1 => r.small0.toNat
  | 2 => r.small1.toNat
  | 3 => r.small2.toNat

/-! ### The block store -/

/-- The record listed at block index q. -/
def BlockStore.read (bs : BlockStore) (q : Nat) : Option BlockRecord :=
  match bs with
  | [] => none
  | (a, r) :: rest => if a = q then some r else BlockStore.read rest q

/-- Replace or insert the record at block index q, keeping the indices rising. -/
def BlockStore.write (bs : BlockStore) (q : Nat) (rec : BlockRecord) : BlockStore :=
  match bs with
  | [] => [(q, rec)]
  | (a, r) :: rest =>
    if q < a then (q, rec) :: (a, r) :: rest
    else if a = q then (q, rec) :: rest
    else (a, r) :: BlockStore.write rest q rec

/-- `MemRead(q, 40)` (00_scope.md R13, 20_memory.md R44), handing the whole record on. -/
def memRead (s : State) (q : Nat) (k : BlockRecord → Result) : Result :=
  if q < s.cfg.maxBlocks then
    match s.store.read q with
    | some rec => k rec
    | none => .fault .blockNotWritten
  else .fault .noSuchBlock

/-- `MemWrite(q, 40, rec)` (00_scope.md R13, 20_memory.md R44): replace the whole record. -/
def memWrite (s : State) (q : Nat) (rec : BlockRecord) : Result :=
  if q < s.cfg.maxBlocks then .next { s with store := s.store.write q rec } else .fault .noSuchBlock

/-! ### Responses and faults -/

/-- `respond(status, result)` of 00_scope.md R13: put the response on the port. -/
def respond (rsp : Rsp) (result : Word) (s : State) : State :=
  { s with response := some { rsp := rsp, result := result } }

/-- The command completes with a value (60_exceptions.md R98, 1). -/
def done (result : Word) (s : State) : Result := .next (respond .ok result s)

/-- A recoverable error: RESULT = 0 and no state change (30_encoding.md R56, 60_exceptions.md R98, R100). -/
def recoverable (rsp : Rsp) (s : State) : Result := .next (respond rsp 0#64 s)

/-- `raise Fault(code)` of 60_exceptions.md R102, from the command word `cmd`. It is a NEXT state: the unit goes on and
serves STATUS (notes/assumptions/7.md). There is no return from it but reset (R104). -/
def raiseFault (code : FaultCode) (cmd : CmdWord) (s : State) : State :=
  respond .fault 0#64 { s with vstate := .faulted, faultCode := code, faultCmd := cmd }

/-! ### The dispatch order -/

/-- The states a command is legal in (30_encoding.md R58). LOAD_BEGIN's other states are taken by the contract check
before this table is asked (60_exceptions.md R101). -/
def legalIn : Instr → VState → Bool
  | .nop, _ => true
  | .clear, v => v != .faulted
  | .loadBegin _, v => v == .empty
  | .loadWord _, v => v == .loading
  | .popcnt _, v => v != .faulted
  | .stageWord _ _, v => v != .faulted
  | .stageOffset _, v => v != .faulted
  | .encode _, v => v != .faulted
  | .readEnc _, v => v != .faulted
  | .length, v => v == .empty || v == .ready
  | .access _, v => v == .empty || v == .ready
  | .rank1 _, v => v == .empty || v == .ready
  | .readBlock _ _, v => v == .empty || v == .ready
  | .status, _ => true

/-- The dispatch step of 60_exceptions.md R101 for every command but STATUS: FAULTED, then the illegal word, then the
contract check `contract`, then the state check, then the command's own rule `body` (which begins with its operand
checks). The illegal-word case of a decoded instruction is an ill-formed field operand (DEDUCED,
notes/assumptions/9.md). -/
def serve (i : Instr) (contract : Option FaultCode) (s : State) (body : Result) : Result :=
  if s.vstate = .faulted then .next (respond .fault 0#64 s)
  else if i.wellFormed = false then .next (raiseFault .illegalCommand (encode i).cmd s)
  else
    match contract with
    | some code => .next (raiseFault code (encode i).cmd s)
    | none => if legalIn i s.vstate then body else recoverable .errState s

/-- A request whose word does not decode (60_exceptions.md R101 steps 1 and 2, R103). -/
def serveIllegal (cmd : CmdWord) (s : State) : Result :=
  if s.vstate = .faulted then .next (respond .fault 0#64 s) else .next (raiseFault .illegalCommand cmd s)

/-! ### The host's side -/

/-- What the unit sees next on its inputs: nothing, the reset input, or a request with the state that has taken it. -/
inductive Arrival where
  | idle
  | reset (rest : List HostInput)
  | request (r : Request) (s : State)

/-- Take the host's next action (10_state.md R18, 70_reset_and_hazards.md R113). -/
def arrival (s : State) : Arrival :=
  match s.inbox with
  | [] => .idle
  | .reset _ :: rest => .reset rest
  | .request r :: rest => .request r { s with inbox := rest }

/-- With no request nothing happens, and a response shown before is no longer shown (10_state.md R18, R21).
DESIGN CHOICE, notes/assumptions/3.md. -/
def idleStep (s : State) : State := { s with response := none }

/-- Reset (70_reset_and_hazards.md R109): every piece of state takes its value of 10_state.md R38, and a request cut
off gets no response. The build and the host's later actions stay. -/
def takeReset (s : State) (rest : List HostInput) : State := { State.resetOf s.cfg with inbox := rest }

/-- Put a request in front of the host's other actions. -/
def placeRequest (s : State) (r : Request) : State := { s with inbox := .request r :: s.inbox }

end Sys2Proof.Machine
end

