-- ==== Sys2Proof/Machine/Flags.lean ====
section
/-! DEFINITION. The unit has no stored flags (10_state.md R21). What it has in their place: the codes of VSTATE,
FAULT_CODE and RSP, the STATUS word, and the output FAULT_OUT. -/

namespace Sys2Proof.Machine

/-- The encoding of VSTATE (10_state.md R22). -/
def VState.bits : VState → BitVec 2
  | .empty => 0#2
  | .loading => 1#2
  | .ready => 2#2
  | .faulted => 3#2

/-- The encoding of FAULT_CODE (60_exceptions.md R99). -/
def FaultCode.bits : FaultCode → BitVec 4
  | .none => 0#4
  | .illegalCommand => 1#4
  | .loadNotEmpty => 2#4
  | .encodeCount => 3#4

/-- The encoding of RSP (30_encoding.md R56). -/
def Rsp.bits : Rsp → BitVec 3
  | .ok => 0#3
  | .errAlloc => 1#3
  | .errRange => 2#3
  | .errState => 3#3
  | .fault => 4#3

/-- FAULT_OUT, the level `VSTATE = FAULTED` (10_state.md R31, 60_exceptions.md R105). -/
def State.faultOut (s : State) : Bool := s.vstate == .faulted

/-- The STATUS word, `{32'b0, FAULT_CMD, 4'b0, GCNT, IMPL, FAULT_CODE, 2'b0, VSTATE}` (10_state.md R32,
44_control.md R97). -/
def statusWord (s : State) : Word :=
  0#32 ++ s.faultCmd ++ 0#4 ++ s.gcnt ++ s.cfg.impl.bit ++ s.faultCode.bits ++ 0#2 ++ s.vstate.bits

end Sys2Proof.Machine
end

