-- ==== Sys2Proof/Machine/Control.lean ====
section
/-! DEFINITION. The control commands NOP and STATUS (44_control.md). -/

namespace Sys2Proof.Machine

/-- NOP (44_control.md R96). -/
def execNop (s : State) : Result := serve .nop none s (done 0#64 s)

/-- STATUS (44_control.md R97), served in every state, FAULTED included (60_exceptions.md R101 step 1, R103). -/
def execStatus (s : State) : Result := done (statusWord s) s

end Sys2Proof.Machine
end

