-- ==== Sys2Proof/Machine/Operands.lean ====
section
/-! DEFINITION. How commands read their operands: the index split and LEADMASK of the query mux
(43_query.md R87, R88), register numbers, and the bit a logical position names (00_scope.md R14). -/

namespace Sys2Proof.Machine

/-- `q = i / 256` (43_query.md R87). -/
def blockIndex (i : Nat) : Nat := i / 256

/-- `wi = (i mod 256) / 64` (43_query.md R87). -/
def wordIndex (i : Nat) : Fin 4 := ⟨i % 256 / 64, by omega⟩

/-- `bo = i mod 64` (43_query.md R87). -/
def bitOffset (i : Nat) : Nat := i % 64

/-- `LEADMASK(b) = ~(0xFFFFFFFFFFFFFFFF >> b)` (43_query.md R88). -/
def leadMask (b : Nat) : Word := ~~~(BitVec.allOnes 64 >>> b)

/-- Word-relative position t of a word is its LSB-0 bit 63 - t (20_memory.md R40). -/
def msbFirstBit (w : Word) (t : Nat) : Bool := w.getLsbD (63 - t)

/-- The bit of a record at block-relative position r: word r / 64, position r mod 64 in it (10_state.md R34). -/
def BlockRecord.bit (rec : BlockRecord) (r : Nat) : Bool :=
  msbFirstBit (rec.payload.get (wordIndex r)) (bitOffset r)

/-- The 256-bit logical payload `{payload[0], payload[1], payload[2], payload[3]}` (10_state.md R34). -/
def BlockRecord.logicalPayload (rec : BlockRecord) : BitVec 256 :=
  rec.payload.w0 ++ rec.payload.w1 ++ rec.payload.w2 ++ rec.payload.w3

/-- `ceil(n / 256)`, the number of blocks (10_state.md R24). -/
def blocksOf (n : Nat) : Nat := (n + 255) / 256

/-- `ceil(n / 64)`, the number of words (10_state.md R25). -/
def wordsOf (n : Nat) : Nat := (n + 63) / 64

/-- zext_64 of one bit. -/
def bitResult (b : Bool) : Word := (BitVec.ofBool b).setWidth 64

end Sys2Proof.Machine
end

