-- ==== Sys2Proof/Machine/Popcount.lean ====
section
/-! DEFINITION. The popcount unit (40_popcount.md): the function, the SWAR network, the built circuit, POPCNT. -/

namespace Sys2Proof.Machine

/-- How many of `f 0 .. f (n - 1)` hold. -/
def countTrue (f : Nat → Bool) : Nat → Nat
  | 0 => 0
  | n + 1 => countTrue f n + (f n).toNat

/-- `popcnt(w)`, the sum of w's bits (40_popcount.md R67). -/
def popcnt (w : Word) : Nat := countTrue w.getLsbD 64

/-- `M_s`: the low s bits of every 2s-bit field are 1 (40_popcount.md R69). -/
def swarMask (s : Nat) : Word :=
  BitVec.ofNat 64 (((List.range (64 / (2 * s))).map fun k => (2 ^ s - 1) <<< (2 * s * k)).sum)

/-- One stage of the network: add adjacent s-bit groups (40_popcount.md R69). -/
def swarStage (s : Nat) (x : Word) : Word := (x &&& swarMask s) + ((x >>> s) &&& swarMask s)

/-- `x_k`, the word after k stages, of group widths 1, 2, 4, 8, 16, 32 (40_popcount.md R69). -/
def swarAfter (w : Word) : Nat → Word
  | 0 => w
  | k + 1 => swarStage (2 ^ k) (swarAfter w k)

/-- `SWAR(w) = x6` (40_popcount.md R69). -/
def swar (w : Word) : Word := swarAfter w 6

/-- The popcount circuit of a build, the one every use of popcount goes through (40_popcount.md R67, R68). HW is
modelled by its function, its structure being unspecified (DEDUCED, notes/assumptions/12.md). -/
def popcount (impl : PopcntImpl) (w : Word) : Nat :=
  match impl with
  | .hw => popcnt w
  | .swar => (swar w).toNat

/-- POPCNT word (40_popcount.md R72). -/
def execPopcnt (word : Word) (s : State) : Result :=
  serve (.popcnt word) none s (done (BitVec.ofNat 64 (popcount s.cfg.impl word)) s)

end Sys2Proof.Machine
end

