-- ==== Sys2Proof/Machine/Query.lean ====
section
/-! DEFINITION. The rank/access query mux (43_query.md): LENGTH, ACCESS, RANK1, READ_BLOCK. -/

namespace Sys2Proof.Machine

/-- LENGTH (43_query.md R89). -/
def execLength (s : State) : Result :=
  serve .length none s (done (s.len.setWidth 64) s)

/-- ACCESS i (43_query.md R90). -/
def execAccess (arg : Word) (s : State) : Result :=
  serve (.access arg) none s <|
    let i := signed64 arg
    if i < 0 ∨ (s.len.toNat : Int) ≤ i then recoverable .errRange s
    else memRead s (blockIndex i.toNat) fun rec => done (bitResult (rec.bit (i.toNat % 256))) s

/-- The sum RANK1 takes from one record: the large count, the small count before the word, and the leading bits of the
word (43_query.md R91). -/
def rankWithin (impl : PopcntImpl) (rec : BlockRecord) (i : Nat) : Nat :=
  rec.large.toNat + rec.countBefore (wordIndex i) +
    popcount impl (rec.payload.get (wordIndex i) &&& leadMask (bitOffset i))

/-- RANK1 i (43_query.md R91). -/
def execRank1 (arg : Word) (s : State) : Result :=
  serve (.rank1 arg) none s <|
    let i := signed64 arg
    if i < 0 then done 0#64 s
    else if (s.len.toNat : Int) < i then recoverable .errRange s
    else if blockIndex i.toNat = s.nb.toNat then done (s.running.setWidth 64) s
    else memRead s (blockIndex i.toNat) fun rec => done (BitVec.ofNat 64 (rankWithin s.cfg.impl rec i.toNat)) s

/-- READ_BLOCK k, q (43_query.md R92). -/
def execReadBlock (k : FField) (q : Word) (s : State) : Result :=
  serve (.readBlock k q) none s <|
    if s.nb.toNat ≤ q.toNat then recoverable .errRange s
    else memRead s q.toNat fun rec => done (rec.chunk k.toNat) s

end Sys2Proof.Machine
end

