-- ==== Sys2Proof/Machine/BlockEncoder.lean ====
section
/-! DEFINITION. The block encoder (41_block_encoder.md) and its commands STAGE_WORD, STAGE_OFFSET, ENCODE, READ_ENC. -/

namespace Sys2Proof.Machine

/-- `P[m] = (m < count) ? words[m] : 0` (41_block_encoder.md R73). -/
def padded (words : Quad) (count : Nat) : Quad where
  w0 := if 0 < count then words.w0 else 0#64
  w1 := if 1 < count then words.w1 else 0#64
  w2 := if 2 < count then words.w2 else 0#64
  w3 := if 3 < count then words.w3 else 0#64

/-- `make_block(words, count, offset)` (41_block_encoder.md R73), with the build's popcount circuit. -/
def makeBlock (impl : PopcntImpl) (words : Quad) (count : Nat) (offset : BitVec 40) : BlockRecord :=
  let p := padded words count
  let c0 := popcount impl p.w0
  let c1 := c0 + popcount impl p.w1
  let c2 := c1 + popcount impl p.w2
  { largeLo := offset.extractLsb' 0 32
    largeHi := offset.extractLsb' 32 8
    small0 := BitVec.ofNat 8 c0
    small1 := BitVec.ofNat 8 c1
    small2 := BitVec.ofNat 8 c2
    payload := p }

/-- The staging slot `j = F[1:0]` (30_encoding.md R60). -/
def stageSlot (j : FField) : Fin 4 := (j.extractLsb' 0 2).toFin

/-- STAGE_WORD j, word (41_block_encoder.md R77). -/
def execStageWord (j : FField) (word : Word) (s : State) : Result :=
  serve (.stageWord j word) none s (done 0#64 { s with stage := s.stage.set (stageSlot j) word })

/-- STAGE_OFFSET offset (41_block_encoder.md R78). -/
def execStageOffset (offset : Word) (s : State) : Result :=
  serve (.stageOffset offset) none s <|
    if 2 ^ 40 ≤ offset.toNat then recoverable .errRange s
    else done 0#64 { s with soff := offset.extractLsb' 0 40 }

/-- The contract check of ENCODE: a count outside 1..4 (41_block_encoder.md R75, R79). -/
def encodeContract (count : FField) : Option FaultCode :=
  if count.legalCount then none else some .encodeCount

/-- ENCODE count (41_block_encoder.md R79). -/
def execEncode (count : FField) (s : State) : Result :=
  serve (.encode count) (encodeContract count) s
    (done 0#64 { s with encOut := makeBlock s.cfg.impl s.stage count.toNat s.soff })

/-- READ_ENC k (41_block_encoder.md R80). -/
def execReadEnc (k : FField) (s : State) : Result :=
  serve (.readEnc k) none s (done (s.encOut.chunk k.toNat) s)

end Sys2Proof.Machine
end

