-- ==== Sys2Proof/Machine/VectorLoad.lean ====
section
/-! DEFINITION. The load sequencer (42_vector_load.md): CLEAR, LOAD_BEGIN, LOAD_WORD. -/

namespace Sys2Proof.Machine

/-- The vector registers CLEAR sets (42_vector_load.md R81); GBUF, BS, the staging registers and the fault record
stay. -/
def clearVector (s : State) : State :=
  { s with
    vstate := .empty, len := 0#41, nb := 0#33, wTotal := 0#35, wDone := 0#35, gcnt := 0#3, bidx := 0#33,
    running := 0#41 }

/-- CLEAR (42_vector_load.md R81). -/
def execClear (s : State) : Result :=
  serve .clear none s (done 0#64 (clearVector s))

/-- The contract check of LOAD_BEGIN (42_vector_load.md R82, 60_exceptions.md R101). -/
def loadContract (v : VState) : Option FaultCode :=
  if v = .loading ∨ v = .ready then some .loadNotEmpty else none

/-- The registers a load of n bits begins with (42_vector_load.md R82). -/
def beginLoad (n : Nat) (s : State) : State :=
  { s with
    len := BitVec.ofNat 41 n, nb := BitVec.ofNat 33 (blocksOf n), wTotal := BitVec.ofNat 35 (wordsOf n),
    wDone := 0#35, gcnt := 0#3, bidx := 0#33, running := 0#41,
    vstate := if n = 0 then .ready else .loading }

/-- LOAD_BEGIN total_bits (42_vector_load.md R82). -/
def execLoadBegin (totalBits : Word) (s : State) : Result :=
  serve (.loadBegin totalBits) (loadContract s.vstate) s <|
    if 256 * s.cfg.maxBlocks < totalBits.toNat then recoverable .errAlloc s
    else done 0#64 (beginLoad totalBits.toNat s)

/-- `popcnt(GBUF[0]) + ... + popcnt(GBUF[g-1])` (42_vector_load.md R83). -/
def groupCount (impl : PopcntImpl) (gbuf : Quad) (g : Nat) : Nat :=
  let p := padded gbuf g
  popcount impl p.w0 + popcount impl p.w1 + popcount impl p.w2 + popcount impl p.w3

/-- Closing a group of g words: write its record, advance RUNNING and BIDX, empty the buffer (42_vector_load.md R83). -/
def closeGroup (g : Nat) (s : State) : Result :=
  andThen
    (memWrite s s.bidx.toNat (makeBlock s.cfg.impl s.gbuf g (s.running.extractLsb' 0 40)))
    fun t => .next
      { t with
        running := BitVec.ofNat 41 (t.running.toNat + groupCount t.cfg.impl t.gbuf g)
        bidx := t.bidx + 1#33
        gcnt := 0#3 }

/-- The word and the count LOAD_WORD writes before it asks whether the group closes (42_vector_load.md R83). -/
def takeWord (m : Fin 4) (word : Word) (s : State) : State :=
  { s with gbuf := s.gbuf.set m word, wDone := s.wDone + 1#35 }

/-- The rest of LOAD_WORD once GBUF[m] is written, with g = m + 1 words in the group (42_vector_load.md R83). -/
def afterWord (m : Fin 4) (s : State) : Result :=
  let g := m.val + 1
  if s.wDone = s.wTotal then
    andThen (closeGroup g s) fun t => done 0#64 { t with vstate := .ready }
  else if g = 4 then
    andThen (closeGroup g s) fun t => done 0#64 t
  else done 0#64 { s with gcnt := BitVec.ofNat 3 g }

/-- LOAD_WORD word (42_vector_load.md R83). -/
def execLoadWord (word : Word) (s : State) : Result :=
  serve (.loadWord word) none s <|
    if h : s.gcnt.toNat < 4 then afterWord ⟨s.gcnt.toNat, h⟩ (takeWord ⟨s.gcnt.toNat, h⟩ word s)
    else .fault .noSuchGroupRegister

end Sys2Proof.Machine
end

