-- ==== Sys2Proof/Machine/Dispatch.lean ====
section
/-! DEFINITION. One arm per command: each is one direct call of the command's own meaning. -/

namespace Sys2Proof.Machine

def exec (i : Instr) (s : State) : Host.Outcome State Fault Refusal :=
  match i with
  | .nop => Sys2Proof.Machine.execNop s
  | .clear => Sys2Proof.Machine.execClear s
  | .loadBegin totalBits => Sys2Proof.Machine.execLoadBegin totalBits s
  | .loadWord word => Sys2Proof.Machine.execLoadWord word s
  | .popcnt word => Sys2Proof.Machine.execPopcnt word s
  | .stageWord j word => Sys2Proof.Machine.execStageWord j word s
  | .stageOffset offset => Sys2Proof.Machine.execStageOffset offset s
  | .encode count => Sys2Proof.Machine.execEncode count s
  | .readEnc k => Sys2Proof.Machine.execReadEnc k s
  | .length => Sys2Proof.Machine.execLength s
  | .access index => Sys2Proof.Machine.execAccess index s
  | .rank1 index => Sys2Proof.Machine.execRank1 index s
  | .readBlock k q => Sys2Proof.Machine.execReadBlock k q s
  | .status => Sys2Proof.Machine.execStatus s

end Sys2Proof.Machine
end

