-- ==== Sys2Proof/Machine/Step.lean ====
section
/-! DEFINITION. One step: the unit takes the host's next action and serves it (00_scope.md R13,
60_exceptions.md R101). -/

namespace Sys2Proof.Machine

/-- One atomic step. With no action of the host the unit waits; the reset input resets it (70_reset_and_hazards.md
R109); a request is decoded and served (60_exceptions.md R101). -/
def step (s : State) : Host.Outcome State Fault Refusal :=
  match arrival s with
  | .idle => .next (idleStep s)
  | .reset rest => .next (takeReset s rest)
  | .request r t =>
    match decode r with
    | .illegal _ => serveIllegal r.cmd t
    | .instr i => exec i t

/-- The request of a table row's word, as the host's very next action: the unit fetches nothing (10_state.md R20), so
a program is the sequence of requests the host sends (notes/assumptions/2.md). -/
def State.withFetchWord (s : State) (nbits w : Nat) : State := placeRequest s (requestOfBits nbits w)

end Sys2Proof.Machine
end

