-- ==== Sys2Proof/Machine/Assembler.lean ====
section
/-! DEFINITION. The assembler of 30_encoding.md R65 and the pseudo-instructions of R66: from a line of a command
script to the requests the host sends. The lexical details R65 leaves open are notes/assumptions/11.md. -/

namespace Sys2Proof.Machine

/-! ### Pseudo-instructions -/

/-- The expansions of 30_encoding.md R66. LOAD is refused unless its word count is `ceil(bits / 64)`. -/
def Pseudo.expand : Pseudo → Option (List Instr)
  | .create => some [.clear]
  | .destroy => some [.clear]
  | .countOnes w => some [.popcnt w]
  | .load bits words =>
    if words.length = wordsOf bits.toNat then some (.loadBegin bits :: words.map .loadWord) else none
  | .makeBlock count off w0 w1 w2 w3 =>
    some [.stageWord 0#3 w0, .stageWord 1#3 w1, .stageWord 2#3 w2, .stageWord 3#3 w3, .stageOffset off, .encode count]

/-! ### Numbers -/

/-- The value of a digit in base 16, if the character is one. -/
def hexDigit (c : Char) : Option Nat :=
  if '0' ≤ c ∧ c ≤ '9' then some (c.toNat - '0'.toNat)
  else if 'a' ≤ c ∧ c ≤ 'f' then some (c.toNat - 'a'.toNat + 10)
  else if 'A' ≤ c ∧ c ≤ 'F' then some (c.toNat - 'A'.toNat + 10)
  else none

/-- The value of digits in a base, most significant first, onto what was read before. -/
def digitsFrom (base : Nat) (acc : Nat) : List Char → Option Nat
  | [] => some acc
  | c :: cs =>
    match hexDigit c with
    | some d => if d < base then digitsFrom base (acc * base + d) cs else none
    | none => none

/-- At least one digit. -/
def digits (base : Nat) : List Char → Option Nat
  | [] => none
  | c :: cs => digitsFrom base 0 (c :: cs)

/-- `field := decimal number`, refused when it does not fit the 3-bit field (30_encoding.md R65). -/
def fieldOperand (t : List Char) : Option FField :=
  match digits 10 t with
  | some n => if n < 2 ^ 3 then some (BitVec.ofNat 3 n) else none
  | none => none

/-- `arg := decimal (optionally negative) | "0x" hexadecimal`; a negative decimal is its 64-bit two's complement; a
value that does not fit is refused, never truncated (30_encoding.md R65). -/
def argOperand (t : List Char) : Option Word :=
  match t with
  | '-' :: ds =>
    match digits 10 ds with
    | some n => if n ≤ 2 ^ 63 then some (-(BitVec.ofNat 64 n)) else none
    | none => none
  | '0' :: 'x' :: hs =>
    match digits 16 hs with
    | some n => if n < 2 ^ 64 then some (BitVec.ofNat 64 n) else none
    | none => none
  | ds =>
    match digits 10 ds with
    | some n => if n < 2 ^ 64 then some (BitVec.ofNat 64 n) else none
    | none => none

/-- All of a list, or nothing. -/
def allArgs : List (List Char) → Option (List Word)
  | [] => some []
  | t :: ts =>
    match argOperand t, allArgs ts with
    | some w, some ws => some (w :: ws)
    | _, _ => none

/-! ### Lines -/

/-- The text before a `#` (30_encoding.md R65). -/
def withoutComment (line : List Char) : List Char := line.takeWhile (· != '#')

/-- The word read so far, if there is one. -/
def flush (acc : List Char) : List (List Char) := if acc.isEmpty then [] else [acc.reverse]

/-- Words and commas of a line; blanks and tabs separate words (notes/assumptions/11.md). -/
def lexemes (acc : List Char) : List Char → List (List Char)
  | [] => flush acc
  | c :: cs =>
    if c = ' ' ∨ c = '\t' then flush acc ++ lexemes [] cs
    else if c = ',' then flush acc ++ [','] :: lexemes [] cs
    else lexemes (c :: acc) cs

/-- The words and commas of a line, its comment left out (30_encoding.md R65). -/
def lineWords (line : String) : List (List Char) := lexemes [] (withoutComment line.toList)

/-- Operands separated by commas: what follows a first operand. -/
def moreOperands : List (List Char) → Option (List (List Char))
  | [] => some []
  | [_] => none
  | sep :: t :: rest =>
    if sep = [','] ∧ t ≠ [','] then
      match moreOperands rest with
      | some ts => some (t :: ts)
      | none => none
    else none

/-- The operand list after a mnemonic. -/
def operandList : List (List Char) → Option (List (List Char))
  | [] => some []
  | t :: rest =>
    if t = [','] then none
    else
      match moreOperands rest with
      | some ts => some (t :: ts)
      | none => none

/-- The four operand shapes of the forms in 30_encoding.md R65. -/
inductive Form where
  | bare
  | field
  | arg
  | fieldArg
  deriving DecidableEq, Repr

/-- Mnemonic, OPC and form of each command (30_encoding.md R58, R65). -/
def commandForms : List (String × BitVec 8 × Form) :=
  [("NOP", 0x00#8, .bare), ("CLEAR", 0x01#8, .bare), ("LOAD_BEGIN", 0x02#8, .arg), ("LOAD_WORD", 0x03#8, .arg),
   ("POPCNT", 0x10#8, .arg), ("STAGE_WORD", 0x11#8, .fieldArg), ("STAGE_OFFSET", 0x12#8, .arg)] ++
  [("ENCODE", 0x13#8, .field), ("READ_ENC", 0x14#8, .field), ("LENGTH", 0x20#8, .bare), ("ACCESS", 0x21#8, .arg),
   ("RANK1", 0x22#8, .arg), ("READ_BLOCK", 0x23#8, .fieldArg), ("STATUS", 0x30#8, .bare)]

/-- Fill a form: `CMD = (OPC << 8) | field`, `ARG = arg`, and an operand the form omits is 0 (30_encoding.md R65). -/
def fillForm (opc : BitVec 8) (form : Form) (ops : List (List Char)) : Option Request :=
  match form, ops with
  | .bare, [] => some { cmd := commandWord opc 0#3, arg := 0#64 }
  | .field, [f] => (fieldOperand f).map fun v => { cmd := commandWord opc v, arg := 0#64 }
  | .arg, [a] => (argOperand a).map fun v => { cmd := commandWord opc 0#3, arg := v }
  | .fieldArg, [f, a] =>
    match fieldOperand f, argOperand a with
    | some v, some w => some { cmd := commandWord opc v, arg := w }
    | _, _ => none
  | _, _ => none

/-- The pseudo-instruction a mnemonic and its operands name (30_encoding.md R66). -/
def pseudoOf (m : List Char) (ops : List (List Char)) : Option Pseudo :=
  if m = "CREATE".toList ∧ ops = [] then some .create
  else if m = "DESTROY".toList ∧ ops = [] then some .destroy
  else if m = "COUNT_ONES".toList then
    match allArgs ops with
    | some [w] => some (.countOnes w)
    | _ => none
  else if m = "LOAD".toList then
    match allArgs ops with
    | some (bits :: words) => some (.load bits words)
    | _ => none
  else if m = "MAKE_BLOCK".toList then
    match ops with
    | c :: rest =>
      match fieldOperand c, allArgs rest with
      | some count, some [off, w0, w1, w2, w3] => some (.makeBlock count off w0 w1 w2 w3)
      | _, _ => none
    | [] => none
  else none

/-- The OPC and form of a mnemonic. -/
def formOf (m : List Char) : Option (BitVec 8 × Form) :=
  (commandForms.find? fun row => row.1.toList == m).map Prod.snd

/-- One line of a command script: the requests it stands for, or a refusal (30_encoding.md R65, R66). -/
def assembleLine (line : String) : Option (List Request) :=
  match lineWords line with
  | [] => none
  | m :: rest =>
    match operandList rest with
    | none => none
    | some ops =>
      match formOf m with
      | some (opc, form) => (fillForm opc form ops).map fun r => [r]
      | none =>
        match pseudoOf m ops with
        | some p => (Pseudo.expand p).map fun is => is.map encode
        | none => none

/-- A command script: one command a line (30_encoding.md R65). -/
def assembleScript : List String → Option (List Request)
  | [] => some []
  | line :: rest =>
    match assembleLine line, assembleScript rest with
    | some rs, some more => some (rs ++ more)
    | _, _ => none

/-- A script put in front of the host's other actions: the host sends its requests in order. -/
def sendScript (s : State) (script : List Request) : State :=
  { s with inbox := script.map .request ++ s.inbox }

end Sys2Proof.Machine
end

