-- ==== Sys2Proof/Safety.lean ====
section
/-! DEFINITION. The unit's invariants (10_state.md R36, R37), what a run's responses are, and when a command sequence
succeeds (70_reset_and_hazards.md R115). -/

namespace Sys2Proof.Machine

/-! ### What the stored records say -/

/-- The popcount of a record's four payload words. -/
def BlockRecord.ones (r : BlockRecord) : Nat :=
  popcnt r.payload.w0 + popcnt r.payload.w1 + popcnt r.payload.w2 + popcnt r.payload.w3

/-- The popcount of the payloads of the records at block indices 0 .. q-1. -/
def BlockStore.onesBefore (bs : BlockStore) : Nat → Nat
  | 0 => 0
  | q + 1 =>
    BlockStore.onesBefore bs q +
      match BlockStore.read bs q with
      | some r => r.ones
      | none => 0

/-- A record is what `make_block` gives for `count` words and a large count: its offset, its prefix sums, and zeros in
the payload words beyond the count (10_state.md R36, R37, 20_memory.md R48, 41_block_encoder.md R73). -/
structure BlockRecord.Good (r : BlockRecord) (count large : Nat) : Prop where
  large_eq : r.large.toNat = large
  small0_eq : r.small0.toNat = popcnt r.payload.w0
  small1_eq : r.small1.toNat = popcnt r.payload.w0 + popcnt r.payload.w1
  small2_eq : r.small2.toNat = popcnt r.payload.w0 + popcnt r.payload.w1 + popcnt r.payload.w2
  padding_eq : ∀ m : Fin 4, count ≤ m.val → r.payload.get m = 0#64

/-- `count_q = min(4, W - 4q)`, how many of a vector's W words block q holds (42_vector_load.md R84). -/
def wordsInBlock (w q : Nat) : Nat := min 4 (w - 4 * q)

/-- The bit of the stored vector at logical position p: word p / 64, MSB first (00_scope.md R14, 43_query.md R94). -/
def BlockStore.bit (bs : BlockStore) (p : Nat) : Bool :=
  match BlockStore.read bs (blockIndex p) with
  | some r => r.bit (p % 256)
  | none => false

/-! ### The invariant -/

/-- What 10_state.md R36 and R37 say in each lifecycle state, and what 10_state.md R30 says of the fault record. -/
def State.PhaseInv (s : State) : Prop :=
  match s.vstate with
  | .empty =>
    s.len = 0#41 ∧ s.nb = 0#33 ∧ s.wTotal = 0#35 ∧ s.wDone = 0#35 ∧ s.bidx = 0#33 ∧ s.running = 0#41 ∧ s.gcnt = 0#3
  | .loading =>
    1 ≤ s.len.toNat ∧ s.wDone.toNat < s.wTotal.toNat ∧ s.wDone.toNat = 4 * s.bidx.toNat + s.gcnt.toNat
  | .ready => s.bidx = s.nb ∧ s.wDone = s.wTotal ∧ s.gcnt = 0#3
  | .faulted => True

/-- The invariant of the unit, from every reachable state (10_state.md R26, R30, R36, R37, 00_scope.md R10, R15). -/
structure State.Inv (s : State) : Prop where
  /-- MAX_BLOCKS is legal (00_scope.md R8). -/
  config_legal : s.cfg.Legal
  /-- The store is in canonical form. -/
  store_wf : s.store.Wf
  /-- Every listed record has an index below MAX_BLOCKS (10_state.md R35). -/
  store_bound : ∀ c ∈ s.store, c.1 < s.cfg.maxBlocks
  /-- LEN is at most 256·MAX_BLOCKS (10_state.md R23). -/
  len_le : s.len.toNat ≤ 256 * s.cfg.maxBlocks
  /-- NB = ceil(LEN / 256) (10_state.md R24). -/
  nb_eq : s.nb.toNat = blocksOf s.len.toNat
  /-- W_TOTAL = ceil(LEN / 64) (10_state.md R25). -/
  wTotal_eq : s.wTotal.toNat = wordsOf s.len.toNat
  /-- GCNT lies in [0, 3] between commands (10_state.md R26). -/
  gcnt_le : s.gcnt.toNat ≤ 3
  /-- No more records are written than the vector has. -/
  bidx_le : s.bidx.toNat ≤ s.nb.toNat
  /-- Every record below BIDX is the one the encoder gave for its group (10_state.md R36, R37). -/
  records_good : ∀ q < s.bidx.toNat, ∃ r, s.store.read q = some r ∧
    r.Good (wordsInBlock s.wTotal.toNat q) (s.store.onesBefore q)
  /-- RUNNING is the popcount of every block written (10_state.md R28). -/
  running_eq : s.running.toNat = s.store.onesBefore s.bidx.toNat
  /-- What holds in each lifecycle state. -/
  phase : s.PhaseInv
  /-- Before a fault the fault record is 0; in FAULTED it holds a fault (10_state.md R30). -/
  fault_record : if s.vstate = .faulted then s.faultCode ≠ .none else s.faultCode = .none ∧ s.faultCmd = 0#16

/-! ### Runs -/

/-- The responses the unit gives in n steps, in order; a step that stops ends them. -/
def responses : Nat → State → List Response
  | 0, _ => []
  | n + 1, s =>
    match step s with
    | .next t => t.response.toList ++ responses n t
    | .fault _ => []
    | .refused _ => []

/-- How a sequence of steps ends: in a state that is not FAULTED, in FAULTED, or at a stop of the model. -/
inductive Ending where
  | finished (s : State)
  | faultOutcome (s : State)
  | stopped
  deriving DecidableEq, Repr

/-- The end of n steps. FAULTED is a fault outcome and no final state (60_exceptions.md R104), whichever state the
sequence began in. -/
def ending (n : Nat) (s : State) : Ending :=
  match (Host.Core.run Sys2Proof.core n s : Host.Outcome State Fault Refusal) with
  | .next t => if t.vstate = .faulted then .faultOutcome t else .finished t
  | .fault _ => .stopped
  | .refused _ => .stopped

/-- The end is a state that is not FAULTED. -/
def Ending.isFinal : Ending → Bool
  | .finished _ => true
  | .faultOutcome _ => false
  | .stopped => false

/-- A command sequence succeeds when no response in it was FAULT (70_reset_and_hazards.md R115) and it does not end in
FAULTED (60_exceptions.md R104). The two rules disagree about a sequence begun in FAULTED that sends only STATUS:
asking both is DESIGN CHOICE, unsafe for a claim that such a sequence does not succeed, notes/assumptions/17.md. -/
def succeeds (n : Nat) (s : State) : Bool :=
  (ending n s).isFinal && (responses n s).all fun r => r.rsp != .fault

/-! ### Terms the claims use -/

/-- The rows of 10_state.md R38 that give a value. -/
structure State.AtReset (s : State) : Prop where
  vstate : s.vstate.bits = 0#2
  len : s.len = 0#41
  nb : s.nb = 0#33
  wTotal : s.wTotal = 0#35
  wDone : s.wDone = 0#35
  gcnt : s.gcnt = 0#3
  bidx : s.bidx = 0#33
  running : s.running = 0#41
  stage : ∀ m, s.stage.get m = 0#64
  soff : s.soff = 0#40
  encOut : s.encOut.toBits = 0#320
  faultCode : s.faultCode.bits = 0#4
  faultCmd : s.faultCmd = 0#16
  faultOut : s.faultOut = false

/-- The state with a response on the port and nothing else changed. -/
def State.answering (s : State) (rsp : Rsp) (result : Word) : State :=
  { s with response := some { rsp := rsp, result := result } }

/-- The state 60_exceptions.md R102 gives for `raise Fault(code)` from the command word `cmd`. -/
def State.faulting (s : State) (code : FaultCode) (cmd : CmdWord) : State :=
  { s with vstate := .faulted, faultCode := code, faultCmd := cmd,
           response := some { rsp := .fault, result := 0#64 } }

/-- The state once the host's next action is taken off its list. -/
def State.taking (s : State) (rest : List HostInput) : State := { s with inbox := rest }

/-- The state of the same registers in a build with another popcount circuit. -/
def State.builtWith (s : State) (impl : PopcntImpl) : State := { s with cfg := { s.cfg with impl := impl } }

/-- The recoverable errors of 30_encoding.md R56. -/
def Rsp.recoverableError : Rsp → Bool
  | .ok => false
  | .errAlloc => true
  | .errRange => true
  | .errState => true
  | .fault => false

/-- The commands that change no state (20_memory.md R46). -/
def readsOnly : Instr → Bool
  | .nop => true
  | .clear => false
  | .loadBegin _ => false
  | .loadWord _ => false
  | .popcnt _ => true
  | .stageWord _ _ => false
  | .stageOffset _ => false
  | .encode _ => false
  | .readEnc _ => true
  | .length => true
  | .access _ => true
  | .rank1 _ => true
  | .readBlock _ _ => true
  | .status => true

/-- The commands that ignore ARG (30_encoding.md R58, R61). -/
def ignoresArg : Instr → Bool
  | .nop => true
  | .clear => true
  | .loadBegin _ => false
  | .loadWord _ => false
  | .popcnt _ => false
  | .stageWord _ _ => false
  | .stageOffset _ => false
  | .encode _ => true
  | .readEnc _ => true
  | .length => true
  | .access _ => false
  | .rank1 _ => false
  | .readBlock _ _ => false
  | .status => true

/-- In FAULTED the command answers FAULT, 0 and changes nothing (60_exceptions.md R103). -/
def FaultsInFaulted (i : Instr) : Prop :=
  ∀ s : State, s.vstate = .faulted → exec i s = .next (s.answering .fault 0#64)

/-- Outside FAULTED, every word with this OPC and Z ≠ 0 or an F that is not legal raises ILLEGAL_COMMAND
(30_encoding.md R62, 60_exceptions.md R102). -/
def OtherWordsIllegal (opc : BitVec 8) (legalF : FField → Bool) : Prop :=
  ∀ (s : State) (r : Request) (rest : List HostInput),
    s.inbox = .request r :: rest → s.vstate ≠ .faulted → r.cmd.opc = opc →
    (r.cmd.z ≠ 0#5 ∨ legalF r.cmd.f = false) →
    step s = .next ((s.taking rest).faulting .illegalCommand r.cmd)

/-- The reserved OPC values of 30_encoding.md R62 (a). -/
def ReservedOpc (o : Nat) : Prop :=
  (0x04 ≤ o ∧ o ≤ 0x0F) ∨ (0x15 ≤ o ∧ o ≤ 0x1F) ∨ (0x24 ≤ o ∧ o ≤ 0x2F) ∨ (0x31 ≤ o ∧ o ≤ 0xFF)

/-- F outside the legal set of 30_encoding.md R60 for a command's OPC (R62 (c)): STAGE_WORD takes 0 to 3, READ_ENC and
READ_BLOCK 0 to 4, ENCODE every value, every other command 0 only. -/
def FieldOutside (o f : Nat) : Prop :=
  (o = 0x11 ∧ 3 < f) ∨ ((o = 0x14 ∨ o = 0x23) ∧ 4 < f) ∨ (o ≠ 0x11 ∧ o ≠ 0x13 ∧ o ≠ 0x14 ∧ o ≠ 0x23 ∧ f ≠ 0)

/-- The text of a decimal digit. -/
def decimalChar (d : Fin 10) : Char := Char.ofNat (48 + d.val)

/-- The text of a hexadecimal digit, in upper or lower case (notes/assumptions/11.md). -/
def hexChar (upper : Bool) (d : Fin 16) : Char :=
  Char.ofNat (if d.val < 10 then 48 + d.val else (if upper then 55 else 87) + d.val)

/-- The number that digits stand for in a base, most significant first. -/
def digitsValue (base : Nat) (ds : List Nat) : Nat := ds.foldl (fun v d => base * v + d) 0

/-- A script line holds this mnemonic and these operands, with commas between them, and any comment
(30_encoding.md R65). -/
def LineHolds (line : String) (mnemonic : String) (operands : List (List Char)) : Prop :=
  lineWords line = mnemonic.toList :: operands.intersperse [',']

/-- A line written out: the mnemonic, a blank, the operands with a comma and a blank between them, and a comment
(30_encoding.md R65). -/
def lineText (mnemonic : String) (operands : List (List Char)) (comment : List Char) : String :=
  String.ofList (mnemonic.toList ++ ' ' :: (operands.intersperse [',', ' ']).flatten ++ '#' :: comment)

/-- The text of one word of a line: not empty, with no blank, tab, comma or `#` in it. -/
def PlainWord (w : List Char) : Prop := w ≠ [] ∧ ∀ c ∈ w, c ≠ ' ' ∧ c ≠ '\t' ∧ c ≠ ',' ∧ c ≠ '#'

/-- How the operands of a line read: a field as a decimal number, an argument as a decimal number, a negative one as its
two's complement, or a hexadecimal one after `0x`; a number that does not fit is refused (30_encoding.md R65). The
ranges and the letter case are notes/assumptions/11.md. -/
def NumbersRead : Prop :=
  (∀ (ds : List (Fin 10)) (v : Nat), ds ≠ [] → v = digitsValue 10 (ds.map Fin.val) →
    fieldOperand (ds.map decimalChar) = (if v < 8 then some (BitVec.ofNat 3 v) else none) ∧
    argOperand (ds.map decimalChar) = (if v < 2 ^ 64 then some (BitVec.ofNat 64 v) else none) ∧
    argOperand ('-' :: ds.map decimalChar) = (if v ≤ 2 ^ 63 then some (BitVec.ofInt 64 (-(v : Int))) else none)) ∧
  (∀ (hs : List (Bool × Fin 16)) (v : Nat), hs ≠ [] → v = digitsValue 16 (hs.map fun h => h.2.val) →
    argOperand ('0' :: 'x' :: hs.map fun h => hexChar h.1 h.2) =
      (if v < 2 ^ 64 then some (BitVec.ofNat 64 v) else none))

/-- The request each command's line assembles to: `CMD = (OPC << 8) | field`, `ARG = arg`, and 0 for an operand the
form omits (30_encoding.md R58, R65). -/
def CommandLinesAssemble : Prop :=
  (∀ line, LineHolds line "NOP" [] → assembleLine line = some [{ cmd := 0x0000#16, arg := 0#64 }]) ∧
  (∀ line, LineHolds line "CLEAR" [] → assembleLine line = some [{ cmd := 0x0100#16, arg := 0#64 }]) ∧
  (∀ line, LineHolds line "LENGTH" [] → assembleLine line = some [{ cmd := 0x2000#16, arg := 0#64 }]) ∧
  (∀ line, LineHolds line "STATUS" [] → assembleLine line = some [{ cmd := 0x3000#16, arg := 0#64 }]) ∧
  (∀ (line : String) (a : List Char) (w : Word), argOperand a = some w →
    (LineHolds line "LOAD_BEGIN" [a] → assembleLine line = some [{ cmd := 0x0200#16, arg := w }]) ∧
    (LineHolds line "LOAD_WORD" [a] → assembleLine line = some [{ cmd := 0x0300#16, arg := w }]) ∧
    (LineHolds line "POPCNT" [a] → assembleLine line = some [{ cmd := 0x1000#16, arg := w }]) ∧
    (LineHolds line "STAGE_OFFSET" [a] → assembleLine line = some [{ cmd := 0x1200#16, arg := w }]) ∧
    (LineHolds line "ACCESS" [a] → assembleLine line = some [{ cmd := 0x2100#16, arg := w }]) ∧
    (LineHolds line "RANK1" [a] → assembleLine line = some [{ cmd := 0x2200#16, arg := w }])) ∧
  (∀ (line : String) (f : List Char) (v : FField), fieldOperand f = some v →
    (LineHolds line "ENCODE" [f] → assembleLine line = some [{ cmd := 0x1300#16 ||| v.setWidth 16, arg := 0#64 }]) ∧
    (LineHolds line "READ_ENC" [f] →
      assembleLine line = some [{ cmd := 0x1400#16 ||| v.setWidth 16, arg := 0#64 }])) ∧
  (∀ (line : String) (f a : List Char) (v : FField) (w : Word), fieldOperand f = some v → argOperand a = some w →
    (LineHolds line "STAGE_WORD" [f, a] →
      assembleLine line = some [{ cmd := 0x1100#16 ||| v.setWidth 16, arg := w }]) ∧
    (LineHolds line "READ_BLOCK" [f, a] →
      assembleLine line = some [{ cmd := 0x2300#16 ||| v.setWidth 16, arg := w }]))

/-- The word the load's k-th LOAD_WORD carries, 0 past the end. -/
def wordAt (ws : List Word) (k : Nat) : Word := ws.getD k 0#64

/-- The four words from position 4q of a load's words. -/
def groupAt (ws : List Word) (q : Nat) : Quad where
  w0 := wordAt ws (4 * q)
  w1 := wordAt ws (4 * q + 1)
  w2 := wordAt ws (4 * q + 2)
  w3 := wordAt ws (4 * q + 3)

/-- The popcount of a list of words. -/
def onesIn (ws : List Word) : Nat := (ws.map popcnt).sum

/-- `bit(p)`, bit 63 - (p mod 64) of word p / 64 of the loaded words (43_query.md R94). -/
def loadedBit (ws : List Word) (p : Nat) : Bool := (wordAt ws (p / 64)).getLsbD (63 - p % 64)

/-- The requests of a load: LOAD_BEGIN n, then one LOAD_WORD per word (70_reset_and_hazards.md R111, 30_encoding.md
R66). -/
def loadRequests (n : Word) (ws : List Word) : List Request :=
  encode (.loadBegin n) :: ws.map fun w => encode (.loadWord w)

/-- The requests a pseudo-instruction's line assembles to (30_encoding.md R66). -/
def PseudoLinesAssemble : Prop :=
  (∀ line, LineHolds line "CREATE" [] → assembleLine line = some [{ cmd := 0x0100#16, arg := 0#64 }]) ∧
  (∀ line, LineHolds line "DESTROY" [] → assembleLine line = some [{ cmd := 0x0100#16, arg := 0#64 }]) ∧
  (∀ (line : String) (a : List Char) (w : Word), LineHolds line "COUNT_ONES" [a] → argOperand a = some w →
    assembleLine line = some [{ cmd := 0x1000#16, arg := w }]) ∧
  (∀ (line : String) (ops : List (List Char)) (bits : Word) (ws : List Word), LineHolds line "LOAD" ops →
    ops.map argOperand = some bits :: ws.map some →
    assembleLine line = if ws.length = (bits.toNat + 63) / 64 then some (loadRequests bits ws) else none) ∧
  (∀ (line : String) (c : List Char) (ops : List (List Char)) (count : FField) (off w0 w1 w2 w3 : Word),
    LineHolds line "MAKE_BLOCK" (c :: ops) → fieldOperand c = some count →
    ops.map argOperand = [some off, some w0, some w1, some w2, some w3] →
    assembleLine line =
      some [{ cmd := 0x1100#16, arg := w0 }, { cmd := 0x1101#16, arg := w1 }, { cmd := 0x1102#16, arg := w2 },
        { cmd := 0x1103#16, arg := w3 }, { cmd := 0x1200#16, arg := off },
        { cmd := 0x1300#16 ||| count.setWidth 16, arg := 0#64 }])

end Sys2Proof.Machine
end

