-- ==== Sys2Proof/Certificates/Slice0/Obligations.lean ====
section
/-! DEFINITION. The statements for the provers, file by file of spec/. Each docstring names the rules it formalises. -/

open Sys2Proof
open Sys2Proof.Machine

/-! ### Reset, the host's side, one step -/

/-- 10_state.md R38: the reset value of every piece of state that has one, in every build; and `State.reset` is the
reset state of a legal build. -/
def Obligations.ResetStateValues : Prop :=
  (∀ c : Config, (State.resetOf c).AtReset) ∧ ∃ c : Config, c.Legal ∧ State.reset = State.resetOf c

/-- 70_reset_and_hazards.md R109: reset takes effect in every state, between commands; a request cut off gets no
response and has no effect; and reset is the only way out of FAULTED. That the build and the host's later actions
stay, and how the input carries the request cut off, is the model's (notes/assumptions/1.md, 2.md, 8.md). -/
def Obligations.ResetInputResets : Prop :=
  (∀ (s : State) (cutOff : Option Request) (rest : List HostInput), s.inbox = .reset cutOff :: rest →
    ∃ t, step s = .next t ∧ t.AtReset ∧ t.response = none ∧ t.cfg = s.cfg ∧ t.inbox = rest) ∧
  (∀ s t : State, s.vstate = .faulted → step s = .next t → t.vstate ≠ .faulted →
    ∃ cutOff rest, s.inbox = .reset cutOff :: rest)

/-- 10_state.md R18 (no background activity), R21 (a response is not kept): with no action of the host, no register
changes. The form of an idle step is the model's (notes/assumptions/3.md). -/
def Obligations.WaitingUnitChangesNothing : Prop :=
  ∀ s : State, s.inbox = [] → step s = .next { s with response := none }

/-- 60_exceptions.md R101: a step on a request whose word decodes runs exactly the decoded command on the state that
has taken the request.
The spec marks R101 as derived. -/
def Obligations.StepRunsDecodedCommand : Prop :=
  ∀ (s : State) (r : Request) (rest : List HostInput) (i : Instr),
    s.inbox = .request r :: rest → decode r = .instr i → step s = exec i (s.taking rest)

/-! ### Command encoding -/

/-- 30_encoding.md R58, R59, R60, R63: decoding the encoded form of a well-formed command gives it back, with every
operand at every value. -/
def Obligations.EncodeThenDecodeGivesTheCommand : Prop :=
  ∀ i : Instr, i.wellFormed = true → decode (encode i) = .instr i

/-- 30_encoding.md R58, R61: a word has one meaning: a command that a request decodes to is well formed, encodes to the
request's command word, and carries the request's ARG unless it ignores ARG. -/
def Obligations.DecodedCommandEncodesToTheWord : Prop :=
  ∀ (r : Request) (i : Instr), decode r = .instr i →
    i.wellFormed = true ∧ (encode i).cmd = r.cmd ∧ (ignoresArg i = false → (encode i).arg = r.arg)

/-- 30_encoding.md R62: the words that are illegal, and what they raise. Every other word decodes to a well-formed
command. -/
def Obligations.IllegalWordsRaiseIllegalCommand : Prop :=
  ∀ r : Request,
    ((ReservedOpc r.cmd.opc.toNat ∨ r.cmd.z ≠ 0#5 ∨ FieldOutside r.cmd.opc.toNat r.cmd.f.toNat) →
      ∀ (s : State) (rest : List HostInput), s.inbox = .request r :: rest → s.vstate ≠ .faulted →
        step s = .next ((s.taking rest).faulting .illegalCommand r.cmd)) ∧
    (¬(ReservedOpc r.cmd.opc.toNat ∨ r.cmd.z ≠ 0#5 ∨ FieldOutside r.cmd.opc.toNat r.cmd.f.toNat) →
      ∃ i : Instr, decode r = .instr i ∧ i.wellFormed = true)

/-- 30_encoding.md R63: exactly 32 command words decode to a command, whatever ARG is.
The spec marks R63 as derived. -/
def Obligations.ExactlyThirtyTwoWordsDecode : Prop :=
  ∃ words : List CmdWord, words.Nodup ∧ words.length = 32 ∧
    ∀ r : Request, r.cmd ∈ words ↔ ∃ i : Instr, decode r = .instr i

/-- 30_encoding.md R58, 95_test_vectors.md section 2.7: words written out from the encoding decode to their
commands, one or more of each family. -/
def Obligations.SampleWordsDecode : Prop :=
  decode { cmd := 0b0000000000000000#16, arg := 0x123456789ABCDEF0#64 } = .instr .nop ∧
  decode { cmd := 0b0000001000000000#16, arg := 0xC0#64 } = .instr (.loadBegin 0xC0#64) ∧
  decode { cmd := 0b0001000100000011#16, arg := 0xF#64 } = .instr (.stageWord 3#3 0xF#64) ∧
  decode { cmd := 0b0001001100000111#16, arg := 0#64 } = .instr (.encode 7#3) ∧
  decode { cmd := 0b0001000000000000#16, arg := 0xF0#64 } = .instr (.popcnt 0xF0#64) ∧
  decode { cmd := 0b0010001100000100#16, arg := 1#64 } = .instr (.readBlock 4#3 1#64) ∧
  decode { cmd := 0b0011000000000000#16, arg := 0#64 } = .instr .status

/-- 30_encoding.md R61: when a command ignores ARG, every ARG value gives the same response and the same next state. -/
def Obligations.UnusedArgumentIsIgnored : Prop :=
  ∀ (s : State) (c : CmdWord) (a b : Word) (rest : List HostInput) (i : Instr),
    decode { cmd := c, arg := a } = .instr i → ignoresArg i = true →
    step { s with inbox := .request { cmd := c, arg := a } :: rest } =
      step { s with inbox := .request { cmd := c, arg := b } :: rest }

/-- 30_encoding.md R66: what each pseudo-instruction expands to, and when LOAD is refused. -/
def Obligations.PseudoInstructionsExpand : Prop :=
  Machine.Pseudo.expand .create = some [.clear] ∧
  Machine.Pseudo.expand .destroy = some [.clear] ∧
  (∀ w, Machine.Pseudo.expand (.countOnes w) = some [.popcnt w]) ∧
  (∀ (bits : Word) (ws : List Word), ws.length = (bits.toNat + 63) / 64 →
    Machine.Pseudo.expand (.load bits ws) = some (.loadBegin bits :: ws.map .loadWord)) ∧
  (∀ (bits : Word) (ws : List Word), ws.length ≠ (bits.toNat + 63) / 64 →
    Machine.Pseudo.expand (.load bits ws) = none) ∧
  (∀ (count : FField) (off w0 w1 w2 w3 : Word),
    Machine.Pseudo.expand (.makeBlock count off w0 w1 w2 w3) =
      some [.stageWord 0#3 w0, .stageWord 1#3 w1, .stageWord 2#3 w2, .stageWord 3#3 w3, .stageOffset off,
        .encode count])

/-- 30_encoding.md R58, R65, R66: the line of each command assembles to that command's own OPC, field and ARG, and the
line of each pseudo-instruction to its expansion; operands are read as numbers, and refused where they do not fit; and
every request that the assembler makes of a line has Z = 0 and an OPC of the opcode map. Which texts hold which words,
and the ranges of the numbers, are the model's (notes/assumptions/11.md). -/
def Obligations.AssembledWordsUseTheOpcodeMap : Prop :=
  (∀ (line : String) (rs : List Request), assembleLine line = some rs →
    ∀ r ∈ rs, r.cmd.z = 0#5 ∧ ¬ReservedOpc r.cmd.opc.toNat) ∧
  (∀ (mnemonic : String) (operands : List (List Char)) (comment : List Char), PlainWord mnemonic.toList →
    (∀ t ∈ operands, PlainWord t) → LineHolds (lineText mnemonic operands comment) mnemonic operands) ∧
  NumbersRead ∧ CommandLinesAssemble ∧ PseudoLinesAssemble

/-! ### Popcount -/

/-- 40_popcount.md R70: in the SWAR network every lane of x_k holds the popcount of its 2^k bits of w, and a stage's
output lane is the exact sum of the two halves of its input lane.
The spec marks R70 as derived. -/
def Obligations.SwarLanesHoldPopcounts : Prop :=
  ∀ (w : Word) (k : Nat),
    (k ≤ 6 → ∀ l < 64 / 2 ^ k,
      ((swarAfter w k).extractLsb' (2 ^ k * l) (2 ^ k)).toNat = countTrue (fun b => w.getLsbD (2 ^ k * l + b)) (2 ^ k)) ∧
    (k < 6 → ∀ l < 64 / 2 ^ (k + 1),
      ((swarAfter w (k + 1)).extractLsb' (2 ^ (k + 1) * l) (2 ^ (k + 1))).toNat =
        ((swarAfter w k).extractLsb' (2 ^ (k + 1) * l) (2 ^ k)).toNat +
          ((swarAfter w k).extractLsb' (2 ^ (k + 1) * l + 2 ^ k) (2 ^ k)).toNat)

/-- 40_popcount.md R69, R71: the SWAR network computes the popcount of every word.
The spec marks R71 as derived. -/
def Obligations.SwarNetworkCountsSetBits : Prop :=
  ∀ w : Word, (swar w).toNat = popcnt w

/-- 40_popcount.md R68, R71: from every state the HW and the SWAR build take the same step and give the same response,
but for STATUS bit 8 (notes/assumptions/16.md); and where one of them stops, the other stops with the same reason.
The spec marks R71 as derived. -/
def Obligations.HwAndSwarBuildsAnswerAlike : Prop :=
  ∀ s : State,
    (∀ t, step (s.builtWith .hw) = .next t →
      ∃ resp : Option Response, step (s.builtWith .swar) = .next { t.builtWith .swar with response := resp } ∧
        ((∀ r rest, s.inbox = .request r :: rest → decode r ≠ .instr .status) → resp = t.response) ∧
        (∀ r rest, s.inbox = .request r :: rest → decode r = .instr .status →
          ∃ v : Word, t.response = some { rsp := .ok, result := v } ∧ v.getLsbD 8 = false ∧
            resp = some { rsp := .ok, result := v ||| 0x100#64 })) ∧
    (∀ u, step (s.builtWith .swar) = .next u → ∃ t, step (s.builtWith .hw) = .next t) ∧
    (∀ e, step (s.builtWith .hw) = .fault e ↔ step (s.builtWith .swar) = .fault e) ∧
    (∀ e, step (s.builtWith .hw) = .refused e ↔ step (s.builtWith .swar) = .refused e)

/-- 40_popcount.md R72: POPCNT, in every build; 64 is the count of one word only. -/
def Obligations.PopcntAnswersTheCount : Prop :=
  (∀ w, encode (.popcnt w) = { cmd := 0x1000#16, arg := w }) ∧
  OtherWordsIllegal 0x10#8 (· == 0#3) ∧ (∀ w, FaultsInFaulted (.popcnt w)) ∧
  (∀ (s : State) (w : Word), s.vstate ≠ .faulted →
    exec (.popcnt w) s = .next (s.answering .ok (BitVec.ofNat 64 (popcnt w)))) ∧
  popcnt 0#64 = 0 ∧ ∀ w : Word, popcnt w ≤ 64 ∧ (popcnt w = 64 ↔ w = 0xFFFFFFFFFFFFFFFF#64)

/-! ### Block records and the encoder -/

/-- 10_state.md R33: the 320 bits of a record, its chunks and its large count. -/
def Obligations.BlockRecordLayout : Prop :=
  ∀ r : BlockRecord,
    r.toBits.extractLsb' 0 32 = r.largeLo ∧ r.toBits.extractLsb' 32 8 = r.largeHi ∧
    r.toBits.extractLsb' 40 8 = r.small0 ∧ r.toBits.extractLsb' 48 8 = r.small1 ∧
    r.toBits.extractLsb' 56 8 = r.small2 ∧
    (∀ m : Fin 4, r.toBits.extractLsb' (64 * (m.val + 1)) 64 = r.payload.get m) ∧
    (∀ k : Nat, k ≤ 4 → r.chunk k = r.toBits.extractLsb' (64 * k) 64) ∧
    r.large.toNat = r.largeHi.toNat * 2 ^ 32 + r.largeLo.toNat

/-- 10_state.md R34: block-relative position r is bit 255 - r of the logical payload, which is bit 63 - (r mod 64) of
payload[r / 64], and it is the bit the queries read.
The spec marks R34 as derived. -/
def Obligations.BlockPositionsAreMsbFirst : Prop :=
  ∀ (rec : BlockRecord) (r : Nat) (m : Fin 4), r < 256 → m.val = r / 64 →
    rec.logicalPayload =
      rec.payload.get 0 ++ rec.payload.get 1 ++ rec.payload.get 2 ++ rec.payload.get 3 ∧
    rec.logicalPayload.getLsbD (255 - r) = (rec.payload.get m).getLsbD (63 - r % 64) ∧
    rec.bit r = rec.logicalPayload.getLsbD (255 - r)

/-- 41_block_encoder.md R73: every field of the record make_block gives, in every build. -/
def Obligations.MakeBlockFields : Prop :=
  ∀ (impl : PopcntImpl) (words : Quad) (count : Nat) (offset : BitVec 40), 1 ≤ count → count ≤ 4 →
    ∀ rec, rec = makeBlock impl words count offset →
      (∀ m : Fin 4, rec.payload.get m = if m.val < count then words.get m else 0#64) ∧
      rec.largeLo = offset.extractLsb' 0 32 ∧ rec.largeHi = offset.extractLsb' 32 8 ∧
      rec.small0.toNat = popcnt (rec.payload.get 0) ∧
      rec.small1.toNat = popcnt (rec.payload.get 0) + popcnt (rec.payload.get 1) ∧
      rec.small2.toNat = popcnt (rec.payload.get 0) + popcnt (rec.payload.get 1) + popcnt (rec.payload.get 2)

/-- 41_block_encoder.md R74: the split offset is put together again by LARGE, and STAGE_OFFSET refuses a wider one.
The spec marks R74 as derived. -/
def Obligations.LargeCountIsTheOffset : Prop :=
  (∀ (impl : PopcntImpl) (words : Quad) (count : Nat) (offset : BitVec 40),
    (makeBlock impl words count offset).large = offset) ∧
  (∀ (s : State) (offset : Word), s.vstate ≠ .faulted → 2 ^ 40 ≤ offset.toNat →
    exec (.stageOffset offset) s = .next (s.answering .errRange 0#64))

/-- 41_block_encoder.md R76: the properties of every record make_block returns.
The spec marks R76 as derived. -/
def Obligations.MakeBlockCountsAreBounded : Prop :=
  ∀ (impl : PopcntImpl) (words : Quad) (count : Nat) (offset : BitVec 40), 1 ≤ count → count ≤ 4 →
    ∀ rec, rec = makeBlock impl words count offset →
      rec.small0.toNat ≤ rec.small1.toNat ∧ rec.small1.toNat ≤ rec.small2.toNat ∧ rec.small2.toNat ≤ 192 ∧
      rec.small1.toNat - rec.small0.toNat = popcnt (rec.payload.get 1) ∧
      rec.small2.toNat - rec.small1.toNat = popcnt (rec.payload.get 2) ∧
      popcnt (rec.payload.get 1) ≤ 64 ∧ popcnt (rec.payload.get 2) ≤ 64 ∧
      ∀ m : Fin 4, count ≤ m.val → rec.payload.get m = 0#64

/-- 41_block_encoder.md R77: STAGE_WORD writes S[j] and nothing else. -/
def Obligations.StageWordWritesItsSlot : Prop :=
  (∀ j w, encode (.stageWord j w) = { cmd := 0x1100#16 ||| j.setWidth 16, arg := w }) ∧
  OtherWordsIllegal 0x11#8 (fun f => decide (f.toNat ≤ 3)) ∧ (∀ j w, FaultsInFaulted (.stageWord j w)) ∧
  ∀ (s : State) (j : FField) (m : Fin 4) (w : Word), s.vstate ≠ .faulted → j.toNat = m.val →
    exec (.stageWord j w) s = .next ({ s with stage := s.stage.set m w }.answering .ok 0#64) ∧
    (s.stage.set m w).get m = w ∧ ∀ k, k ≠ m → (s.stage.set m w).get k = s.stage.get k

/-- 41_block_encoder.md R78: STAGE_OFFSET writes SOFF when the offset is below 2^40, else nothing. -/
def Obligations.StageOffsetWritesSoff : Prop :=
  (∀ off, encode (.stageOffset off) = { cmd := 0x1200#16, arg := off }) ∧
  OtherWordsIllegal 0x12#8 (· == 0#3) ∧ (∀ off, FaultsInFaulted (.stageOffset off)) ∧
  ∀ (s : State) (off : Word), s.vstate ≠ .faulted →
    (2 ^ 40 ≤ off.toNat → exec (.stageOffset off) s = .next (s.answering .errRange 0#64)) ∧
    (off.toNat < 2 ^ 40 → ∃ v : BitVec 40, v.toNat = off.toNat ∧
      exec (.stageOffset off) s = .next ({ s with soff := v }.answering .ok 0#64))

/-- 41_block_encoder.md R79: ENCODE runs make_block on the staging registers, or raises ENCODE_COUNT. -/
def Obligations.EncodeRunsTheBlockEncoder : Prop :=
  (∀ count, (encode (.encode count)).cmd = 0x1300#16 ||| count.setWidth 16) ∧
  OtherWordsIllegal 0x13#8 (fun _ => true) ∧ (∀ count, FaultsInFaulted (.encode count)) ∧
  ∀ (s : State) (count : FField), s.vstate ≠ .faulted →
    ((count.toNat = 0 ∨ 4 < count.toNat) →
      exec (.encode count) s = .next (s.faulting .encodeCount (encode (.encode count)).cmd)) ∧
    (1 ≤ count.toNat → count.toNat ≤ 4 →
      exec (.encode count) s =
        .next ({ s with encOut := makeBlock s.cfg.impl s.stage count.toNat s.soff }.answering .ok 0#64))

/-- 41_block_encoder.md R80: READ_ENC returns a chunk of ENC_OUT. -/
def Obligations.ReadEncReturnsAChunk : Prop :=
  (∀ k, (encode (.readEnc k)).cmd = 0x1400#16 ||| k.setWidth 16) ∧
  OtherWordsIllegal 0x14#8 (fun f => decide (f.toNat ≤ 4)) ∧ (∀ k, FaultsInFaulted (.readEnc k)) ∧
  ∀ (s : State) (k : FField), s.vstate ≠ .faulted → k.toNat ≤ 4 →
    exec (.readEnc k) s = .next (s.answering .ok (s.encOut.toBits.extractLsb' (64 * k.toNat) 64))

/-! ### The load sequencer -/

/-- 42_vector_load.md R81: CLEAR empties the vector and leaves the staging registers and the fault record; in EMPTY it
changes nothing (the premise `s.Inv` of that clause rules out states no run reaches). That CLEAR leaves GBUF as it is,
where 10_state.md R26 calls its contents after CLEAR unspecified, is the model's choice (notes/assumptions/4.md), and so
is that the block store keeps its list of records (notes/assumptions/5.md). -/
def Obligations.ClearEmptiesTheVector : Prop :=
  (encode .clear).cmd = 0x0100#16 ∧ OtherWordsIllegal 0x01#8 (· == 0#3) ∧ FaultsInFaulted .clear ∧
  (∀ s : State, s.vstate ≠ .faulted →
    exec .clear s =
      .next ({ s with vstate := .empty, len := 0#41, nb := 0#33, wTotal := 0#35, wDone := 0#35, gcnt := 0#3,
                      bidx := 0#33, running := 0#41 }.answering .ok 0#64)) ∧
  ∀ s : State, s.Inv → s.vstate = .empty → exec .clear s = .next (s.answering .ok 0#64)

/-- 42_vector_load.md R82: LOAD_BEGIN, its fatal fault, its allocation failure and its success. -/
def Obligations.LoadBeginStartsALoad : Prop :=
  (∀ n, encode (.loadBegin n) = { cmd := 0x0200#16, arg := n }) ∧
  OtherWordsIllegal 0x02#8 (· == 0#3) ∧ (∀ n, FaultsInFaulted (.loadBegin n)) ∧
  ∀ (s : State) (n : Word),
    ((s.vstate = .loading ∨ s.vstate = .ready) →
      exec (.loadBegin n) s = .next (s.faulting .loadNotEmpty 0x0200#16)) ∧
    (s.vstate = .empty → 256 * s.cfg.maxBlocks < n.toNat →
      exec (.loadBegin n) s = .next (s.answering .errAlloc 0#64)) ∧
    (s.vstate = .empty → s.cfg.Legal → n.toNat ≤ 256 * s.cfg.maxBlocks →
      ∃ (len : BitVec 41) (nb : BitVec 33) (wTotal : BitVec 35),
        len.toNat = n.toNat ∧ nb.toNat = (n.toNat + 255) / 256 ∧ wTotal.toNat = (n.toNat + 63) / 64 ∧
        exec (.loadBegin n) s =
          .next ({ s with len := len, nb := nb, wTotal := wTotal, wDone := 0#35, gcnt := 0#3, bidx := 0#33,
                          running := 0#41,
                          vstate := if n.toNat = 0 then .ready else .loading }.answering .ok 0#64))

/-- 42_vector_load.md R83: LOAD_WORD, whether the group closes or not, and outside LOADING. The premise `s.Inv` rules
out states no run reaches (the invariant is a statement of its own). -/
def Obligations.LoadWordConsumesAWord : Prop :=
  (∀ w, encode (.loadWord w) = { cmd := 0x0300#16, arg := w }) ∧
  OtherWordsIllegal 0x03#8 (· == 0#3) ∧ (∀ w, FaultsInFaulted (.loadWord w)) ∧
  (∀ (s : State) (w : Word), s.vstate = .empty ∨ s.vstate = .ready →
    exec (.loadWord w) s = .next (s.answering .errState 0#64)) ∧
  ∀ (s : State) (w : Word) (m : Fin 4) (gbuf : Quad) (wDone : BitVec 35), s.Inv → s.vstate = .loading →
    s.gcnt.toNat = m.val → gbuf = s.gbuf.set m w → wDone.toNat = s.wDone.toNat + 1 →
    (m.val + 1 < 4 → wDone ≠ s.wTotal → ∃ gcnt : BitVec 3, gcnt.toNat = m.val + 1 ∧
      exec (.loadWord w) s = .next ({ s with gbuf := gbuf, wDone := wDone, gcnt := gcnt }.answering .ok 0#64)) ∧
    (m.val + 1 = 4 ∨ wDone = s.wTotal →
      ∃ (offset : BitVec 40) (running : BitVec 41) (bidx : BitVec 33),
        offset.toNat = s.running.toNat ∧
        running.toNat = s.running.toNat +
          ((List.finRange 4).map fun k => if k.val ≤ m.val then popcnt (gbuf.get k) else 0).sum ∧
        bidx.toNat = s.bidx.toNat + 1 ∧
        exec (.loadWord w) s =
          .next ({ s with
            gbuf := gbuf, wDone := wDone,
            store := s.store.write s.bidx.toNat (makeBlock s.cfg.impl gbuf (m.val + 1) offset),
            running := running, bidx := bidx, gcnt := 0#3,
            vstate := if wDone = s.wTotal then .ready else .loading }.answering .ok 0#64))

/-- 10_state.md R35, 20_memory.md R44: only LOAD_WORD writes the block store, and it writes only the record at BIDX:
every other index reads as before; a LOAD_WORD that closes no group writes none. -/
def Obligations.OnlyLoadWordWritesTheBlockStore : Prop :=
  ∀ (i : Instr) (s t : State), exec i s = .next t →
    ((∀ w, i ≠ .loadWord w) → ∀ q, t.store.read q = s.store.read q) ∧
    (∀ q, q ≠ s.bidx.toNat → t.store.read q = s.store.read q) ∧
    (t.bidx = s.bidx → ∀ q, t.store.read q = s.store.read q)

/-- What the commands leave unchanged in the vector registers, and what LOAD_WORD, LOAD_BEGIN and CLEAR leave unchanged
elsewhere (42_vector_load.md R81 to R83, and for every other command 10_state.md R19, R26): LEN, NB and W_TOTAL change
only by LOAD_BEGIN and CLEAR; none of the three touches the staging registers, SOFF or ENC_OUT; GBUF changes only by
LOAD_WORD. That this last clause holds of CLEAR, where 10_state.md R26 calls GBUF unspecified, is the model's choice
(notes/assumptions/4.md); that no command changes the build or the host's later actions rests on the model's form of
both (notes/assumptions/1.md, 2.md). -/
def Obligations.LoadCommandsFrame : Prop :=
  ∀ (i : Instr) (s t : State), exec i s = .next t →
    ((i ≠ .clear ∧ ∀ n, i ≠ .loadBegin n) → t.len = s.len ∧ t.nb = s.nb ∧ t.wTotal = s.wTotal) ∧
    ((i = .clear ∨ (∃ n, i = .loadBegin n) ∨ ∃ w, i = .loadWord w) →
      t.stage = s.stage ∧ t.soff = s.soff ∧ t.encOut = s.encOut) ∧
    ((∀ w, i ≠ .loadWord w) → t.gbuf = s.gbuf) ∧
    t.cfg = s.cfg ∧ t.inbox = s.inbox

/-- 42_vector_load.md R84: a completed load, block for block, from every state that is EMPTY and meets the invariant.
The run takes the load's requests and leaves the host's later ones, in the model's form of what the host does
(notes/assumptions/2.md).
The spec marks R84 as derived. -/
def Obligations.CompletedLoadHoldsTheEncodedGroups : Prop :=
  ∀ (s : State) (n : Word) (ws : List Word), s.Inv → s.vstate = .empty → 0 < n.toNat →
    n.toNat ≤ 256 * s.cfg.maxBlocks → ws.length = (n.toNat + 63) / 64 →
    ∃ t : State, Host.Core.run Sys2Proof.core (1 + ws.length) (sendScript s (loadRequests n ws)) = .next t ∧
      t.Inv ∧ t.vstate = .ready ∧ t.len.toNat = n.toNat ∧ t.inbox = s.inbox ∧
      (∀ q < t.nb.toNat, ∃ offset : BitVec 40, offset.toNat = onesIn (ws.take (4 * q)) ∧
        t.store.read q =
          some (makeBlock s.cfg.impl (groupAt ws q) (min 4 (ws.length - 4 * q)) offset)) ∧
      t.running.toNat = onesIn ws

/-- 43_query.md R94, 42_vector_load.md R84: after a load of the words ws, ACCESS answers the bits of ws and RANK1 the
number of set bits before a position.
The spec marks R94 as derived. -/
def Obligations.LoadedVectorAnswersQueries : Prop :=
  ∀ (s : State) (n : Word) (ws : List Word), s.Inv → s.vstate = .empty → 0 < n.toNat →
    n.toNat ≤ 256 * s.cfg.maxBlocks → ws.length = (n.toNat + 63) / 64 →
    ∃ t : State, Host.Core.run Sys2Proof.core (1 + ws.length) (sendScript s (loadRequests n ws)) = .next t ∧
      (∀ i < n.toNat, exec (.access (BitVec.ofNat 64 i)) t =
        .next (t.answering .ok (if loadedBit ws i then 1#64 else 0#64))) ∧
      (∀ i ≤ n.toNat, exec (.rank1 (BitVec.ofNat 64 i)) t =
        .next (t.answering .ok (BitVec.ofNat 64 (countTrue (loadedBit ws) i))))

/-! ### Queries -/

/-- 43_query.md R87: the index split as slices of the index. -/
def Obligations.IndexSplitsIntoSlices : Prop :=
  ∀ i : Word, i.toNat ≤ 2 ^ 40 →
    blockIndex i.toNat = i.toNat / 256 ∧ blockIndex i.toNat = (i.extractLsb' 8 33).toNat ∧
    i.toNat % 256 = (i.extractLsb' 0 8).toNat ∧
    (wordIndex i.toNat).val = i.toNat % 256 / 64 ∧ (wordIndex i.toNat).val = (i.extractLsb' 6 2).toNat ∧
    bitOffset i.toNat = i.toNat % 256 % 64 ∧ bitOffset i.toNat = (i.extractLsb' 0 6).toNat

/-- 43_query.md R88: LEADMASK(b) is the leading b bits, and masking a word with it counts the positions before b.
The spec marks R88 as derived. -/
def Obligations.LeadMaskKeepsLeadingPositions : Prop :=
  ∀ b : Nat, b ≤ 63 →
    leadMask b = ~~~(0xFFFFFFFFFFFFFFFF#64 >>> b) ∧
    (∀ k < 64, (leadMask b).getLsbD k = decide (64 - b ≤ k)) ∧ leadMask 0 = 0#64 ∧
    ∀ w : Word, popcnt (w &&& leadMask b) = countTrue (fun p => w.getLsbD (63 - p)) b

/-- 43_query.md R89: LENGTH. -/
def Obligations.LengthAnswersLen : Prop :=
  (encode .length).cmd = 0x2000#16 ∧ OtherWordsIllegal 0x20#8 (· == 0#3) ∧ FaultsInFaulted .length ∧
  ∀ s : State,
    (s.vstate = .loading → exec .length s = .next (s.answering .errState 0#64)) ∧
    (s.vstate = .empty ∨ s.vstate = .ready → exec .length s = .next (s.answering .ok (s.len.setWidth 64)))

/-- 43_query.md R90: ACCESS, on a record that is stored. -/
def Obligations.AccessAnswersTheBit : Prop :=
  (∀ a, encode (.access a) = { cmd := 0x2100#16, arg := a }) ∧
  OtherWordsIllegal 0x21#8 (· == 0#3) ∧ (∀ a, FaultsInFaulted (.access a)) ∧
  ∀ (s : State) (a : Word),
    (s.vstate = .loading → exec (.access a) s = .next (s.answering .errState 0#64)) ∧
    (s.vstate = .empty ∨ s.vstate = .ready →
      (a.toInt < 0 ∨ (s.len.toNat : Int) ≤ a.toInt → exec (.access a) s = .next (s.answering .errRange 0#64)) ∧
      ∀ (i : Nat) (rec : BlockRecord) (m : Fin 4), a.toInt = i → i < s.len.toNat →
        i / 256 < s.cfg.maxBlocks → s.store.read (i / 256) = some rec → m.val = i % 256 / 64 →
        exec (.access a) s =
          .next (s.answering .ok (if (rec.payload.get m).getLsbD (63 - i % 64) then 1#64 else 0#64)))

/-- 43_query.md R91: RANK1, in every build, on a record that is stored. -/
def Obligations.Rank1AnswersTheCount : Prop :=
  (∀ a, encode (.rank1 a) = { cmd := 0x2200#16, arg := a }) ∧
  OtherWordsIllegal 0x22#8 (· == 0#3) ∧ (∀ a, FaultsInFaulted (.rank1 a)) ∧
  ∀ (s : State) (a : Word),
    (s.vstate = .loading → exec (.rank1 a) s = .next (s.answering .errState 0#64)) ∧
    (s.vstate = .empty ∨ s.vstate = .ready →
      (a.toInt < 0 → exec (.rank1 a) s = .next (s.answering .ok 0#64)) ∧
      ((s.len.toNat : Int) < a.toInt → exec (.rank1 a) s = .next (s.answering .errRange 0#64)) ∧
      ∀ i : Nat, a.toInt = i → i ≤ s.len.toNat →
        (i / 256 = s.nb.toNat → exec (.rank1 a) s = .next (s.answering .ok (s.running.setWidth 64))) ∧
        ∀ (rec : BlockRecord) (m : Fin 4) (before : Nat), i / 256 ≠ s.nb.toNat → i / 256 < s.cfg.maxBlocks →
          s.store.read (i / 256) = some rec → m.val = i % 256 / 64 →
          (m = 0 → before = 0) → (m = 1 → before = rec.small0.toNat) → (m = 2 → before = rec.small1.toNat) →
          (m = 3 → before = rec.small2.toNat) →
          exec (.rank1 a) s =
            .next (s.answering .ok (BitVec.ofNat 64
              (rec.large.toNat + before + popcnt (rec.payload.get m &&& leadMask (i % 64))))))

/-- 43_query.md R92: READ_BLOCK, on a record that is stored. -/
def Obligations.ReadBlockReturnsAChunk : Prop :=
  (∀ k q, encode (.readBlock k q) = { cmd := 0x2300#16 ||| k.setWidth 16, arg := q }) ∧
  OtherWordsIllegal 0x23#8 (fun f => decide (f.toNat ≤ 4)) ∧ (∀ k q, FaultsInFaulted (.readBlock k q)) ∧
  ∀ (s : State) (k : FField) (q : Word), k.toNat ≤ 4 →
    (s.vstate = .loading → exec (.readBlock k q) s = .next (s.answering .errState 0#64)) ∧
    (s.vstate = .empty ∨ s.vstate = .ready →
      (s.nb.toNat ≤ q.toNat → exec (.readBlock k q) s = .next (s.answering .errRange 0#64)) ∧
      ∀ rec : BlockRecord, q.toNat < s.nb.toNat → q.toNat < s.cfg.maxBlocks → s.store.read q.toNat = some rec →
        exec (.readBlock k q) s = .next (s.answering .ok (rec.toBits.extractLsb' (64 * k.toNat) 64)))

/-- 43_query.md R94, over the records the unit holds: in READY, ACCESS answers the stored bit and RANK1 the number of
set bits before the position.
The spec marks R94 as derived. -/
def Obligations.QueriesAnswerTheStoredVector : Prop :=
  ∀ s : State, s.Inv → s.vstate = .ready →
    (∀ i < s.len.toNat, exec (.access (BitVec.ofNat 64 i)) s =
      .next (s.answering .ok (if s.store.bit i then 1#64 else 0#64))) ∧
    (∀ i ≤ s.len.toNat, exec (.rank1 (BitVec.ofNat 64 i)) s =
      .next (s.answering .ok (BitVec.ofNat 64 (countTrue s.store.bit i)))) ∧
    (∀ a : Word, a.toInt < 0 → exec (.rank1 a) s = .next (s.answering .ok 0#64))

/-- 43_query.md R95, 00_scope.md R15: RANK1 grows by 0 or 1 from a position to the next, starts at 0 and stays at or
below the position asked, hence at or below LEN.
The spec marks R95 as derived. -/
def Obligations.RankGrowsByAtMostOne : Prop :=
  ∀ s : State, s.Inv → s.vstate = .ready →
    exec (.rank1 0#64) s = .next (s.answering .ok 0#64) ∧
    ∀ i < s.len.toNat, ∃ a b : Word, a.toNat ≤ b.toNat ∧ b.toNat ≤ a.toNat + 1 ∧ a.toNat ≤ i ∧
      exec (.rank1 (BitVec.ofNat 64 i)) s = .next (s.answering .ok a) ∧
      exec (.rank1 (BitVec.ofNat 64 (i + 1))) s = .next (s.answering .ok b)

/-- 43_query.md R93: two READY vectors of one length that agree on the bits below LEN answer every in-range ACCESS and
RANK1 alike, whatever their trailing bits, padding words and records at and beyond NB.
The spec marks R93 as derived. -/
def Obligations.TrailingBitsChangeNoQuery : Prop :=
  ∀ s u : State, s.Inv → u.Inv → s.vstate = .ready → u.vstate = .ready → s.len = u.len →
    (∀ p < s.len.toNat, s.store.bit p = u.store.bit p) →
    (∀ i < s.len.toNat, ∃ v : Word, exec (.access (BitVec.ofNat 64 i)) s = .next (s.answering .ok v) ∧
      exec (.access (BitVec.ofNat 64 i)) u = .next (u.answering .ok v)) ∧
    (∀ i ≤ s.len.toNat, ∃ v : Word, exec (.rank1 (BitVec.ofNat 64 i)) s = .next (s.answering .ok v) ∧
      exec (.rank1 (BitVec.ofNat 64 i)) u = .next (u.answering .ok v))

/-! ### Control -/

/-- 44_control.md R96: NOP. -/
def Obligations.NopDoesNothing : Prop :=
  (encode .nop).cmd = 0x0000#16 ∧ (∀ a, decode { cmd := 0x0000#16, arg := a } = .instr .nop) ∧
  OtherWordsIllegal 0x00#8 (· == 0#3) ∧ FaultsInFaulted .nop ∧
  ∀ s : State, s.vstate ≠ .faulted → exec .nop s = .next (s.answering .ok 0#64)

/-- 10_state.md R32, 44_control.md R97: STATUS answers OK in every state, FAULTED included, with the fields of the
STATUS word in their places and 0 in the reserved ones. The fault codes are those of 60_exceptions.md R99. -/
def Obligations.StatusShowsTheFields : Prop :=
  (encode .status).cmd = 0x3000#16 ∧ OtherWordsIllegal 0x30#8 (· == 0#3) ∧
  (FaultCode.bits .none = 0#4 ∧ FaultCode.bits .illegalCommand = 1#4 ∧ FaultCode.bits .loadNotEmpty = 2#4 ∧
    FaultCode.bits .encodeCount = 3#4) ∧
  ∀ s : State, ∃ v : Word, exec .status s = .next (s.answering .ok v) ∧
    v.extractLsb' 0 2 = s.vstate.bits ∧ v.extractLsb' 2 2 = 0#2 ∧ v.extractLsb' 4 4 = s.faultCode.bits ∧
    v.extractLsb' 8 1 = (if s.cfg.impl = .hw then 0#1 else 1#1) ∧ v.extractLsb' 9 3 = s.gcnt ∧
    v.extractLsb' 12 4 = 0#4 ∧ v.extractLsb' 16 16 = s.faultCmd ∧ v.extractLsb' 32 32 = 0#32

/-! ### Faults, and rules about all commands -/

/-- 60_exceptions.md R102: raising a fatal fault. -/
def Obligations.FaultEntryRecordsCodeAndCommand : Prop :=
  ∀ (code : FaultCode) (cmd : CmdWord) (s : State),
    raiseFault code cmd s =
      { s with vstate := .faulted, faultCode := code, faultCmd := cmd,
               response := some { rsp := .fault, result := 0#64 } } ∧
    (raiseFault code cmd s).faultOut = true

/-- 60_exceptions.md R103: in FAULTED, STATUS answers OK with the STATUS word; every other request answers FAULT, 0 and
changes nothing; the fault record stays. -/
def Obligations.FaultedUnitServesOnlyStatus : Prop :=
  ∀ (s : State) (r : Request) (rest : List HostInput), s.vstate = .faulted → s.inbox = .request r :: rest →
    (decode r = .instr .status → step s = .next ((s.taking rest).answering .ok (statusWord s))) ∧
    (decode r ≠ .instr .status → step s = .next ((s.taking rest).answering .fault 0#64))

/-- 60_exceptions.md R100: a recoverable error leaves every piece of state unchanged, and is answered on the
conditions of the rule's table only. -/
def Obligations.RecoverableErrorsChangeNothing : Prop :=
  ∀ (i : Instr) (s t : State) (resp : Response), exec i s = .next t → t.response = some resp →
    (resp.rsp.recoverableError = true → t = s.answering resp.rsp 0#64) ∧
    (resp.rsp = .errAlloc → ∃ n, i = .loadBegin n ∧ 256 * s.cfg.maxBlocks < n.toNat) ∧
    (resp.rsp = .errRange →
      (∃ off, i = .stageOffset off ∧ 2 ^ 40 ≤ off.toNat) ∨
      (∃ a, i = .access a ∧ (a.toInt < 0 ∨ (s.len.toNat : Int) ≤ a.toInt)) ∨
      (∃ a, i = .rank1 a ∧ (s.len.toNat : Int) < a.toInt) ∨
      (∃ k q, i = .readBlock k q ∧ s.nb.toNat ≤ q.toNat)) ∧
    (resp.rsp = .errState →
      ((∃ w, i = .loadWord w) ∧ (s.vstate = .empty ∨ s.vstate = .ready)) ∨
      ((i = .length ∨ (∃ a, i = .access a) ∨ (∃ a, i = .rank1 a) ∨ ∃ k q, i = .readBlock k q) ∧
        s.vstate = .loading))

/-- 60_exceptions.md R98, 30_encoding.md R56: the codes of RSP; and from every state that meets the invariant, every
request is answered, in exactly one of the three ways, and RESULT is 0 unless the answer is OK. The premise rests on
notes/assumptions/5.md and 6.md. -/
def Obligations.EveryRequestIsAnswered : Prop :=
  (Rsp.bits .ok = 0#3 ∧ Rsp.bits .errAlloc = 1#3 ∧ Rsp.bits .errRange = 2#3 ∧ Rsp.bits .errState = 3#3 ∧
    Rsp.bits .fault = 4#3) ∧
  ∀ (s : State) (r : Request) (rest : List HostInput), s.Inv → s.inbox = .request r :: rest →
    ∃ (t : State) (resp : Response), step s = .next t ∧ t.response = some resp ∧
      (resp.rsp ≠ .ok → resp.result = 0#64) ∧
      ((resp.rsp = .ok ∧ (s.vstate = .faulted → decode r = .instr .status)) ∨
       (resp.rsp.recoverableError = true ∧ t = (s.taking rest).answering resp.rsp 0#64) ∨
       (resp.rsp = .fault ∧ t.vstate = .faulted))

/-- 60_exceptions.md R104, 70_reset_and_hazards.md R115: a sequence of steps that ends in FAULTED is a fault outcome and
never succeeds, whichever state it began in; begun outside FAULTED, under the invariant, it succeeds just when no
response in it was FAULT; begun in FAULTED, with no reset among what the host does, it never succeeds. That R104 is
followed where R115's words alone would let a sequence begun in FAULTED succeed is the model's choice
(notes/assumptions/7.md, 17.md). -/
def Obligations.SequencesEndingInFaultedNeverSucceed : Prop :=
  (∀ (n : Nat) (s t : State), Host.Core.run Sys2Proof.core n s = .next t → t.vstate = .faulted →
    ending n s = .faultOutcome t ∧ Machine.succeeds n s = false) ∧
  (∀ (n : Nat) (s : State), s.Inv → s.vstate ≠ .faulted →
    (Machine.succeeds n s = true ↔ ∀ r ∈ responses n s, r.rsp ≠ .fault)) ∧
  (∀ (n : Nat) (s : State), s.vstate = .faulted → (∀ cutOff, .reset cutOff ∉ s.inbox) → Machine.succeeds n s = false)

/-- 20_memory.md R46: the commands that change no state, and those that are idempotent.
The spec marks R46 as derived. -/
def Obligations.ReadsChangeNothingAndWritersRepeat : Prop :=
  (∀ (i : Instr) (s t : State), readsOnly i = true → i.wellFormed = true → exec i s = .next t →
    t = { s with response := t.response } ∧ exec i t = .next t) ∧
  (∀ (i : Instr) (s t : State),
    (i = .clear ∨ (∃ j w, i = .stageWord j w) ∨ (∃ off, i = .stageOffset off) ∨ ∃ count, i = .encode count) →
    exec i s = .next t → exec i t = .next t) ∧
  (∃ (n : Word) (s t u : State), exec (.loadBegin n) s = .next t ∧ exec (.loadBegin n) t = .next u ∧ u ≠ t) ∧
  (∃ (w : Word) (s t u : State), exec (.loadWord w) s = .next t ∧ exec (.loadWord w) t = .next u ∧ u ≠ t)

/-- 20_memory.md R52: a command that only reads leaves every later command's answer and next state as they would have
been without it.
The spec marks R52 as derived. -/
def Obligations.QueriesInterleaveFreely : Prop :=
  ∀ (i j : Instr) (s t : State), readsOnly i = true → i.wellFormed = true → exec i s = .next t → exec j t = exec j s

/-- 10_state.md R22: the encodings of VSTATE and its transitions, and no others. -/
def Obligations.LifecycleTransitions : Prop :=
  (VState.bits .empty = 0#2 ∧ VState.bits .loading = 1#2 ∧ VState.bits .ready = 2#2 ∧ VState.bits .faulted = 3#2) ∧
  ∀ s t : State, step s = .next t → t.vstate ≠ s.vstate →
    (∃ cutOff rest, s.inbox = .reset cutOff :: rest ∧ t.vstate = .empty) ∨
    ∃ r rest, s.inbox = .request r :: rest ∧
      ((decode r = .instr .clear ∧ (s.vstate = .loading ∨ s.vstate = .ready) ∧ t.vstate = .empty) ∨
       (∃ n, decode r = .instr (.loadBegin n) ∧ s.vstate = .empty ∧
         t.vstate = if n.toNat = 0 then .ready else .loading) ∨
       (∃ w, decode r = .instr (.loadWord w) ∧ s.vstate = .loading ∧ t.vstate = .ready ∧ t.wDone = t.wTotal) ∨
       (s.vstate ≠ .faulted ∧ t.vstate = .faulted ∧ t.response = some { rsp := .fault, result := 0#64 }))

/-- 10_state.md R30: FAULT_CODE and FAULT_CMD are written only on entry to FAULTED, with the command word that raised
the fault, and set to 0 by reset. -/
def Obligations.FaultRecordWrittenOnlyOnEntry : Prop :=
  ∀ s t : State, step s = .next t →
    (t.faultCode ≠ s.faultCode ∨ t.faultCmd ≠ s.faultCmd) →
      (∃ cutOff rest, s.inbox = .reset cutOff :: rest ∧ t.faultCode.bits = 0#4 ∧ t.faultCmd = 0#16) ∨
      (∃ r rest, s.inbox = .request r :: rest ∧ s.vstate ≠ .faulted ∧ t.vstate = .faulted ∧
        t.faultCode.bits ≠ 0#4 ∧ t.faultCmd = r.cmd)

/-- 20_memory.md R50: while the vector is READY, no command but CLEAR writes LEN, NB, RUNNING or a record.
The spec marks R50 as derived. -/
def Obligations.ReadyVectorIsImmutable : Prop :=
  ∀ (i : Instr) (s t : State), s.vstate = .ready → i ≠ .clear → exec i s = .next t →
    t.len = s.len ∧ t.nb = s.nb ∧ t.running = s.running ∧ (∀ q, t.store.read q = s.store.read q) ∧
    (t.vstate = .ready ∨ t.vstate = .faulted)

/-- 10_state.md R19, R29: S, SOFF and ENC_OUT are each written by one command only, and that command writes no other
register of the unit unless it faults. -/
def Obligations.StagingWrittenOnlyByStagingCommands : Prop :=
  ∀ (i : Instr) (s t : State), exec i s = .next t →
    (t.stage ≠ s.stage → (∃ j w, i = .stageWord j w) ∧ t = { s with stage := t.stage, response := t.response }) ∧
    (t.soff ≠ s.soff → (∃ off, i = .stageOffset off) ∧ t = { s with soff := t.soff, response := t.response }) ∧
    (t.encOut ≠ s.encOut → (∃ count, i = .encode count) ∧ t = { s with encOut := t.encOut, response := t.response })

/-! ### Invariants and what cannot be observed -/

/-- 10_state.md R36, R37, R38: the invariant, zero padding of the stored records included, holds after reset of every
legal build.
The spec marks R36 and R37 as derived. -/
def Obligations.InvariantHoldsAfterReset : Prop :=
  ∀ c : Config, c.Legal → (State.resetOf c).Inv

/-- 10_state.md R26, R30, R36, R37: every step keeps the invariant, in it that every record below BIDX is the encoder's
for its group: its offset, its prefix sums, and zeros in the payload words beyond the group's count (20_memory.md R48).
The spec marks R36 and R37 as derived. -/
def Obligations.EveryStepKeepsTheInvariant : Prop :=
  ∀ s t : State, s.Inv → step s = .next t → t.Inv

/-- Every step keeps the block store in canonical form and the build's parameters as they are, from every state
(notes/assumptions/1.md, 5.md; 10_state.md R35). -/
def Obligations.EveryStepKeepsTheStoreCanonical : Prop :=
  ∀ s t : State, step s = .next t → (s.store.Wf → t.store.Wf) ∧ t.cfg = s.cfg

/-- 10_state.md R37: in READY the large counts do not decrease with the block index.
The spec marks R37 as derived. -/
def Obligations.LargeCountsDoNotDecrease : Prop :=
  ∀ (s : State) (p q : Nat), s.Inv → s.vstate = .ready → p ≤ q → q < s.nb.toNat →
    ∃ a b : BlockRecord, s.store.read p = some a ∧ s.store.read q = some b ∧ a.large.toNat ≤ b.large.toNat

/-- 10_state.md R26, 42_vector_load.md R83: GBUF entries at and beyond GCNT change no response and nothing else of the
next state.
The spec marks R26 as derived. -/
def Obligations.StaleGroupWordsAreUnobservable : Prop :=
  ∀ (s t : State) (gbuf : Quad), s.gcnt.toNat ≤ 3 →
    (∀ m : Fin 4, m.val < s.gcnt.toNat → gbuf.get m = s.gbuf.get m) → step s = .next t →
    ∃ g : Quad, step { s with gbuf := gbuf } = .next { t with gbuf := g } ∧
      ∀ m : Fin 4, m.val < t.gcnt.toNat → g.get m = t.gbuf.get m

/-- 10_state.md R35, 20_memory.md R48: records at and beyond BIDX (in READY, at and beyond NB) change no response and
nothing else of the next state.
The spec marks R35 as derived. -/
def Obligations.UnwrittenRecordsAreUnobservable : Prop :=
  ∀ (s t : State) (store : BlockStore), s.Inv →
    (∀ q < s.bidx.toNat, store.read q = s.store.read q) → step s = .next t →
    ∃ bs : BlockStore, step { s with store := store } = .next { t with store := bs } ∧
      ∀ q < t.bidx.toNat, bs.read q = t.store.read q
end

