-- ==== Sys2Proof/Laws/Assembler.lean ====
section
/-! SUPPORT. Laws of the assembler: what a line's words, operands and numbers read as, and, once, what a line with a
mnemonic and operands assembles to (30_encoding.md R65). -/

namespace Sys2Proof.Machine

/-! ### Words of a line -/

/-- The characters of one word are read onto the word so far. -/
theorem lexemes_append {w : List Char} (h : ∀ c ∈ w, c ≠ ' ' ∧ c ≠ '\t' ∧ c ≠ ',' ∧ c ≠ '#') (acc rest : List Char) :
    lexemes acc (w ++ rest) = lexemes (w.reverse ++ acc) rest := by
  induction w generalizing acc with
  | nil => rfl
  | cons c cs ih =>
    obtain ⟨hb, ht, hc, -⟩ := h c (by simp)
    rw [List.cons_append, lexemes, if_neg (by simp [hb, ht]), if_neg hc, ih fun c hc => h c (by simp [hc])]
    simp

@[simp] theorem flush_reverse {w : List Char} (h : w ≠ []) : flush w.reverse = [w] := by simp [flush, h]

/-- Operands with commas between them read as those operands. -/
theorem operandList_intersperse {ops : List (List Char)} (h : ∀ t ∈ ops, t ≠ [',']) :
    operandList (ops.intersperse [',']) = some ops := by
  have key : ∀ (ops : List (List Char)) (a : List Char), (∀ t ∈ ops, t ≠ [',']) →
      ∃ r, (a :: ops).intersperse [','] = a :: r ∧ moreOperands r = some ops := by
    intro ops
    induction ops with
    | nil => exact fun _ _ => ⟨[], rfl, rfl⟩
    | cons b ops ih =>
      intro a h
      obtain ⟨r, h1, h2⟩ := ih b fun t ht => h t (by simp [ht])
      refine ⟨[','] :: b :: r, by rw [List.intersperse_cons_cons, h1], ?_⟩
      rw [moreOperands, if_pos ⟨rfl, h b (by simp)⟩, h2]
  cases ops with
  | nil => rfl
  | cons a rest =>
    obtain ⟨r, h1, h2⟩ := key rest a fun t ht => h t (by simp [ht])
    rw [h1, operandList, if_neg (h a (by simp)), h2]

/-! ### Numbers -/

theorem hexDigit_decimalChar : ∀ d : Fin 10, hexDigit (decimalChar d) = some d.val := by decide

theorem hexDigit_hexChar : ∀ (upper : Bool) (d : Fin 16), hexDigit (hexChar upper d) = some d.val := by decide

theorem fieldOperand_ne_comma {t : List Char} {v : FField} (h : fieldOperand t = some v) : t ≠ [','] := by
  rintro rfl
  cases h

theorem argOperand_ne_comma {t : List Char} {w : Word} (h : argOperand t = some w) : t ≠ [','] := by
  rintro rfl
  cases h

/-- `allArgs` reads every operand as an argument. -/
theorem allArgs_of_map {ops : List (List Char)} {ws : List Word} (h : ops.map argOperand = ws.map some) :
    allArgs ops = some ws := by
  induction ops generalizing ws with
  | nil => cases ws <;> simp_all [allArgs]
  | cons a ops ih =>
    cases ws with
    | nil => simp at h
    | cons w ws =>
      simp only [List.map_cons, List.cons.injEq] at h
      rw [allArgs, h.1, ih h.2]

/-! ### A line -/

/-- A line with a command's mnemonic assembles to the command's filled form. -/
theorem assembleLine_of_form {line m : String} {ops : List (List Char)} {opc : BitVec 8} {form : Form}
    (h : LineHolds line m ops) (hc : ∀ t ∈ ops, t ≠ [',']) (hf : formOf m.toList = some (opc, form)) :
    assembleLine line = (fillForm opc form ops).map fun r => [r] := by
  simp only [assembleLine, show lineWords line = _ from h, operandList_intersperse hc, hf]

/-- A line with a pseudo-instruction's name assembles to its expansion. -/
theorem assembleLine_of_pseudo {line m : String} {ops : List (List Char)} {p : Pseudo}
    (h : LineHolds line m ops) (hc : ∀ t ∈ ops, t ≠ [',']) (hf : formOf m.toList = none)
    (hp : pseudoOf m.toList ops = some p) :
    assembleLine line = (Pseudo.expand p).map fun is => is.map encode := by
  simp only [assembleLine, show lineWords line = _ from h, operandList_intersperse hc, hf, hp]

end Sys2Proof.Machine
end

