-- ==== Sys2Proof/Laws/State.lean ====
section
/-! SUPPORT. One lemma per field per named update of State, true by rfl. -/

namespace Sys2Proof.Machine

/-! ### `respond` -/

@[simp] theorem respond_cfg (r : Rsp) (v : Word) (s : State) : (respond r v s).cfg = s.cfg := rfl
@[simp] theorem respond_vstate (r : Rsp) (v : Word) (s : State) : (respond r v s).vstate = s.vstate := rfl
@[simp] theorem respond_len (r : Rsp) (v : Word) (s : State) : (respond r v s).len = s.len := rfl
@[simp] theorem respond_nb (r : Rsp) (v : Word) (s : State) : (respond r v s).nb = s.nb := rfl
@[simp] theorem respond_wTotal (r : Rsp) (v : Word) (s : State) : (respond r v s).wTotal = s.wTotal := rfl
@[simp] theorem respond_wDone (r : Rsp) (v : Word) (s : State) : (respond r v s).wDone = s.wDone := rfl
@[simp] theorem respond_gbuf (r : Rsp) (v : Word) (s : State) : (respond r v s).gbuf = s.gbuf := rfl
@[simp] theorem respond_gcnt (r : Rsp) (v : Word) (s : State) : (respond r v s).gcnt = s.gcnt := rfl
@[simp] theorem respond_bidx (r : Rsp) (v : Word) (s : State) : (respond r v s).bidx = s.bidx := rfl
@[simp] theorem respond_running (r : Rsp) (v : Word) (s : State) : (respond r v s).running = s.running := rfl
@[simp] theorem respond_stage (r : Rsp) (v : Word) (s : State) : (respond r v s).stage = s.stage := rfl
@[simp] theorem respond_soff (r : Rsp) (v : Word) (s : State) : (respond r v s).soff = s.soff := rfl
@[simp] theorem respond_encOut (r : Rsp) (v : Word) (s : State) : (respond r v s).encOut = s.encOut := rfl
@[simp] theorem respond_faultCode (r : Rsp) (v : Word) (s : State) : (respond r v s).faultCode = s.faultCode := rfl
@[simp] theorem respond_faultCmd (r : Rsp) (v : Word) (s : State) : (respond r v s).faultCmd = s.faultCmd := rfl
@[simp] theorem respond_store (r : Rsp) (v : Word) (s : State) : (respond r v s).store = s.store := rfl
@[simp] theorem respond_inbox (r : Rsp) (v : Word) (s : State) : (respond r v s).inbox = s.inbox := rfl
@[simp] theorem respond_response (r : Rsp) (v : Word) (s : State) : (respond r v s).response = some { rsp := r, result := v } := rfl

/-! ### `raiseFault` -/

@[simp] theorem raiseFault_cfg (c : FaultCode) (w : CmdWord) (s : State) : (raiseFault c w s).cfg = s.cfg := rfl
@[simp] theorem raiseFault_vstate (c : FaultCode) (w : CmdWord) (s : State) : (raiseFault c w s).vstate = .faulted := rfl
@[simp] theorem raiseFault_len (c : FaultCode) (w : CmdWord) (s : State) : (raiseFault c w s).len = s.len := rfl
@[simp] theorem raiseFault_nb (c : FaultCode) (w : CmdWord) (s : State) : (raiseFault c w s).nb = s.nb := rfl
@[simp] theorem raiseFault_wTotal (c : FaultCode) (w : CmdWord) (s : State) : (raiseFault c w s).wTotal = s.wTotal := rfl
@[simp] theorem raiseFault_wDone (c : FaultCode) (w : CmdWord) (s : State) : (raiseFault c w s).wDone = s.wDone := rfl
@[simp] theorem raiseFault_gbuf (c : FaultCode) (w : CmdWord) (s : State) : (raiseFault c w s).gbuf = s.gbuf := rfl
@[simp] theorem raiseFault_gcnt (c : FaultCode) (w : CmdWord) (s : State) : (raiseFault c w s).gcnt = s.gcnt := rfl
@[simp] theorem raiseFault_bidx (c : FaultCode) (w : CmdWord) (s : State) : (raiseFault c w s).bidx = s.bidx := rfl
@[simp] theorem raiseFault_running (c : FaultCode) (w : CmdWord) (s : State) : (raiseFault c w s).running = s.running := rfl
@[simp] theorem raiseFault_stage (c : FaultCode) (w : CmdWord) (s : State) : (raiseFault c w s).stage = s.stage := rfl
@[simp] theorem raiseFault_soff (c : FaultCode) (w : CmdWord) (s : State) : (raiseFault c w s).soff = s.soff := rfl
@[simp] theorem raiseFault_encOut (c : FaultCode) (w : CmdWord) (s : State) : (raiseFault c w s).encOut = s.encOut := rfl
@[simp] theorem raiseFault_faultCode (c : FaultCode) (w : CmdWord) (s : State) : (raiseFault c w s).faultCode = c := rfl
@[simp] theorem raiseFault_faultCmd (c : FaultCode) (w : CmdWord) (s : State) : (raiseFault c w s).faultCmd = w := rfl
@[simp] theorem raiseFault_store (c : FaultCode) (w : CmdWord) (s : State) : (raiseFault c w s).store = s.store := rfl
@[simp] theorem raiseFault_inbox (c : FaultCode) (w : CmdWord) (s : State) : (raiseFault c w s).inbox = s.inbox := rfl
@[simp] theorem raiseFault_response (c : FaultCode) (w : CmdWord) (s : State) : (raiseFault c w s).response = some { rsp := .fault, result := 0#64 } := rfl

/-! ### `clearVector` -/

@[simp] theorem clearVector_cfg (s : State) : (clearVector s).cfg = s.cfg := rfl
@[simp] theorem clearVector_vstate (s : State) : (clearVector s).vstate = .empty := rfl
@[simp] theorem clearVector_len (s : State) : (clearVector s).len = 0#41 := rfl
@[simp] theorem clearVector_nb (s : State) : (clearVector s).nb = 0#33 := rfl
@[simp] theorem clearVector_wTotal (s : State) : (clearVector s).wTotal = 0#35 := rfl
@[simp] theorem clearVector_wDone (s : State) : (clearVector s).wDone = 0#35 := rfl
@[simp] theorem clearVector_gbuf (s : State) : (clearVector s).gbuf = s.gbuf := rfl
@[simp] theorem clearVector_gcnt (s : State) : (clearVector s).gcnt = 0#3 := rfl
@[simp] theorem clearVector_bidx (s : State) : (clearVector s).bidx = 0#33 := rfl
@[simp] theorem clearVector_running (s : State) : (clearVector s).running = 0#41 := rfl
@[simp] theorem clearVector_stage (s : State) : (clearVector s).stage = s.stage := rfl
@[simp] theorem clearVector_soff (s : State) : (clearVector s).soff = s.soff := rfl
@[simp] theorem clearVector_encOut (s : State) : (clearVector s).encOut = s.encOut := rfl
@[simp] theorem clearVector_faultCode (s : State) : (clearVector s).faultCode = s.faultCode := rfl
@[simp] theorem clearVector_faultCmd (s : State) : (clearVector s).faultCmd = s.faultCmd := rfl
@[simp] theorem clearVector_store (s : State) : (clearVector s).store = s.store := rfl
@[simp] theorem clearVector_inbox (s : State) : (clearVector s).inbox = s.inbox := rfl
@[simp] theorem clearVector_response (s : State) : (clearVector s).response = s.response := rfl

/-! ### `beginLoad` -/

@[simp] theorem beginLoad_cfg (n : Nat) (s : State) : (beginLoad n s).cfg = s.cfg := rfl
@[simp] theorem beginLoad_vstate (n : Nat) (s : State) : (beginLoad n s).vstate = (if n = 0 then .ready else .loading) := rfl
@[simp] theorem beginLoad_len (n : Nat) (s : State) : (beginLoad n s).len = BitVec.ofNat 41 n := rfl
@[simp] theorem beginLoad_nb (n : Nat) (s : State) : (beginLoad n s).nb = BitVec.ofNat 33 (blocksOf n) := rfl
@[simp] theorem beginLoad_wTotal (n : Nat) (s : State) : (beginLoad n s).wTotal = BitVec.ofNat 35 (wordsOf n) := rfl
@[simp] theorem beginLoad_wDone (n : Nat) (s : State) : (beginLoad n s).wDone = 0#35 := rfl
@[simp] theorem beginLoad_gbuf (n : Nat) (s : State) : (beginLoad n s).gbuf = s.gbuf := rfl
@[simp] theorem beginLoad_gcnt (n : Nat) (s : State) : (beginLoad n s).gcnt = 0#3 := rfl
@[simp] theorem beginLoad_bidx (n : Nat) (s : State) : (beginLoad n s).bidx = 0#33 := rfl
@[simp] theorem beginLoad_running (n : Nat) (s : State) : (beginLoad n s).running = 0#41 := rfl
@[simp] theorem beginLoad_stage (n : Nat) (s : State) : (beginLoad n s).stage = s.stage := rfl
@[simp] theorem beginLoad_soff (n : Nat) (s : State) : (beginLoad n s).soff = s.soff := rfl
@[simp] theorem beginLoad_encOut (n : Nat) (s : State) : (beginLoad n s).encOut = s.encOut := rfl
@[simp] theorem beginLoad_faultCode (n : Nat) (s : State) : (beginLoad n s).faultCode = s.faultCode := rfl
@[simp] theorem beginLoad_faultCmd (n : Nat) (s : State) : (beginLoad n s).faultCmd = s.faultCmd := rfl
@[simp] theorem beginLoad_store (n : Nat) (s : State) : (beginLoad n s).store = s.store := rfl
@[simp] theorem beginLoad_inbox (n : Nat) (s : State) : (beginLoad n s).inbox = s.inbox := rfl
@[simp] theorem beginLoad_response (n : Nat) (s : State) : (beginLoad n s).response = s.response := rfl

/-! ### `takeWord` -/

@[simp] theorem takeWord_cfg (m : Fin 4) (w : Word) (s : State) : (takeWord m w s).cfg = s.cfg := rfl
@[simp] theorem takeWord_vstate (m : Fin 4) (w : Word) (s : State) : (takeWord m w s).vstate = s.vstate := rfl
@[simp] theorem takeWord_len (m : Fin 4) (w : Word) (s : State) : (takeWord m w s).len = s.len := rfl
@[simp] theorem takeWord_nb (m : Fin 4) (w : Word) (s : State) : (takeWord m w s).nb = s.nb := rfl
@[simp] theorem takeWord_wTotal (m : Fin 4) (w : Word) (s : State) : (takeWord m w s).wTotal = s.wTotal := rfl
@[simp] theorem takeWord_wDone (m : Fin 4) (w : Word) (s : State) : (takeWord m w s).wDone = s.wDone + 1#35 := rfl
@[simp] theorem takeWord_gbuf (m : Fin 4) (w : Word) (s : State) : (takeWord m w s).gbuf = s.gbuf.set m w := rfl
@[simp] theorem takeWord_gcnt (m : Fin 4) (w : Word) (s : State) : (takeWord m w s).gcnt = s.gcnt := rfl
@[simp] theorem takeWord_bidx (m : Fin 4) (w : Word) (s : State) : (takeWord m w s).bidx = s.bidx := rfl
@[simp] theorem takeWord_running (m : Fin 4) (w : Word) (s : State) : (takeWord m w s).running = s.running := rfl
@[simp] theorem takeWord_stage (m : Fin 4) (w : Word) (s : State) : (takeWord m w s).stage = s.stage := rfl
@[simp] theorem takeWord_soff (m : Fin 4) (w : Word) (s : State) : (takeWord m w s).soff = s.soff := rfl
@[simp] theorem takeWord_encOut (m : Fin 4) (w : Word) (s : State) : (takeWord m w s).encOut = s.encOut := rfl
@[simp] theorem takeWord_faultCode (m : Fin 4) (w : Word) (s : State) : (takeWord m w s).faultCode = s.faultCode := rfl
@[simp] theorem takeWord_faultCmd (m : Fin 4) (w : Word) (s : State) : (takeWord m w s).faultCmd = s.faultCmd := rfl
@[simp] theorem takeWord_store (m : Fin 4) (w : Word) (s : State) : (takeWord m w s).store = s.store := rfl
@[simp] theorem takeWord_inbox (m : Fin 4) (w : Word) (s : State) : (takeWord m w s).inbox = s.inbox := rfl
@[simp] theorem takeWord_response (m : Fin 4) (w : Word) (s : State) : (takeWord m w s).response = s.response := rfl

/-! ### `idleStep` -/

@[simp] theorem idleStep_cfg (s : State) : (idleStep s).cfg = s.cfg := rfl
@[simp] theorem idleStep_vstate (s : State) : (idleStep s).vstate = s.vstate := rfl
@[simp] theorem idleStep_len (s : State) : (idleStep s).len = s.len := rfl
@[simp] theorem idleStep_nb (s : State) : (idleStep s).nb = s.nb := rfl
@[simp] theorem idleStep_wTotal (s : State) : (idleStep s).wTotal = s.wTotal := rfl
@[simp] theorem idleStep_wDone (s : State) : (idleStep s).wDone = s.wDone := rfl
@[simp] theorem idleStep_gbuf (s : State) : (idleStep s).gbuf = s.gbuf := rfl
@[simp] theorem idleStep_gcnt (s : State) : (idleStep s).gcnt = s.gcnt := rfl
@[simp] theorem idleStep_bidx (s : State) : (idleStep s).bidx = s.bidx := rfl
@[simp] theorem idleStep_running (s : State) : (idleStep s).running = s.running := rfl
@[simp] theorem idleStep_stage (s : State) : (idleStep s).stage = s.stage := rfl
@[simp] theorem idleStep_soff (s : State) : (idleStep s).soff = s.soff := rfl
@[simp] theorem idleStep_encOut (s : State) : (idleStep s).encOut = s.encOut := rfl
@[simp] theorem idleStep_faultCode (s : State) : (idleStep s).faultCode = s.faultCode := rfl
@[simp] theorem idleStep_faultCmd (s : State) : (idleStep s).faultCmd = s.faultCmd := rfl
@[simp] theorem idleStep_store (s : State) : (idleStep s).store = s.store := rfl
@[simp] theorem idleStep_inbox (s : State) : (idleStep s).inbox = s.inbox := rfl
@[simp] theorem idleStep_response (s : State) : (idleStep s).response = none := rfl

/-! ### `sendScript` -/

@[simp] theorem sendScript_cfg (s : State) (rs : List Request) : (sendScript s rs).cfg = s.cfg := rfl
@[simp] theorem sendScript_vstate (s : State) (rs : List Request) : (sendScript s rs).vstate = s.vstate := rfl
@[simp] theorem sendScript_len (s : State) (rs : List Request) : (sendScript s rs).len = s.len := rfl
@[simp] theorem sendScript_nb (s : State) (rs : List Request) : (sendScript s rs).nb = s.nb := rfl
@[simp] theorem sendScript_wTotal (s : State) (rs : List Request) : (sendScript s rs).wTotal = s.wTotal := rfl
@[simp] theorem sendScript_wDone (s : State) (rs : List Request) : (sendScript s rs).wDone = s.wDone := rfl
@[simp] theorem sendScript_gbuf (s : State) (rs : List Request) : (sendScript s rs).gbuf = s.gbuf := rfl
@[simp] theorem sendScript_gcnt (s : State) (rs : List Request) : (sendScript s rs).gcnt = s.gcnt := rfl
@[simp] theorem sendScript_bidx (s : State) (rs : List Request) : (sendScript s rs).bidx = s.bidx := rfl
@[simp] theorem sendScript_running (s : State) (rs : List Request) : (sendScript s rs).running = s.running := rfl
@[simp] theorem sendScript_stage (s : State) (rs : List Request) : (sendScript s rs).stage = s.stage := rfl
@[simp] theorem sendScript_soff (s : State) (rs : List Request) : (sendScript s rs).soff = s.soff := rfl
@[simp] theorem sendScript_encOut (s : State) (rs : List Request) : (sendScript s rs).encOut = s.encOut := rfl
@[simp] theorem sendScript_faultCode (s : State) (rs : List Request) : (sendScript s rs).faultCode = s.faultCode := rfl
@[simp] theorem sendScript_faultCmd (s : State) (rs : List Request) : (sendScript s rs).faultCmd = s.faultCmd := rfl
@[simp] theorem sendScript_store (s : State) (rs : List Request) : (sendScript s rs).store = s.store := rfl
@[simp] theorem sendScript_inbox (s : State) (rs : List Request) : (sendScript s rs).inbox = rs.map .request ++ s.inbox := rfl
@[simp] theorem sendScript_response (s : State) (rs : List Request) : (sendScript s rs).response = s.response := rfl

end Sys2Proof.Machine
end

