-- ==== Sys2Proof/Laws/Store.lean ====
section
/-! SUPPORT. What reading and writing the block store, a register group and a record do: each law once, for later
proofs to cite. -/

namespace Sys2Proof.Machine

/-! ### Register groups -/

@[simp] theorem Quad.get_set_same (q : Quad) (m : Fin 4) (w : Word) : (q.set m w).get m = w := by
  fin_cases m <;> rfl

theorem Quad.get_set_other (q : Quad) {m k : Fin 4} (w : Word) (h : k ≠ m) : (q.set m w).get k = q.get k := by
  fin_cases m <;> fin_cases k <;> first | rfl | exact absurd rfl h

theorem Quad.ext_get {p q : Quad} (h : ∀ m, p.get m = q.get m) : p = q := by
  have h0 := h 0
  have h1 := h 1
  have h2 := h 2
  have h3 := h 3
  cases p
  cases q
  simp_all [Quad.get]

/-! ### The block store -/

namespace BlockStore

@[simp] theorem read_write_same (bs : BlockStore) (q : Nat) (rec : BlockRecord) :
    (bs.write q rec).read q = some rec := by
  induction bs with
  | nil => simp [write, read]
  | cons c rest ih =>
    obtain ⟨a, r⟩ := c
    simp only [write]
    split
    · simp [read]
    · split
      · simp [read]
      · simp [read, *]

theorem read_write_other (bs : BlockStore) {q p : Nat} (rec : BlockRecord) (h : p ≠ q) :
    (bs.write q rec).read p = bs.read p := by
  induction bs with
  | nil => simp [write, read, Ne.symm h]
  | cons c rest ih =>
    obtain ⟨a, r⟩ := c
    simp only [write]
    split
    · simp [read, Ne.symm h]
    · split
      · subst a
        simp [read, Ne.symm h]
      · simp [read, ih]

/-- The indices listed after a write: the written one and those listed before. -/
theorem mem_write {bs : BlockStore} {q : Nat} {rec : BlockRecord} {c : Nat × BlockRecord}
    (h : c ∈ bs.write q rec) : c = (q, rec) ∨ c ∈ bs := by
  induction bs with
  | nil => simp_all [write]
  | cons d rest ih =>
    simp only [write] at h
    split at h
    · simpa using h
    · split at h
      · simp only [List.mem_cons] at h ⊢
        tauto
      · simp only [List.mem_cons] at h ⊢
        tauto

/-- A write keeps the canonical form. -/
theorem write_wf {bs : BlockStore} (h : bs.Wf) (q : Nat) (rec : BlockRecord) : (bs.write q rec).Wf := by
  induction bs with
  | nil => simp [write, Wf]
  | cons d rest ih =>
    obtain ⟨a, r⟩ := d
    simp only [Wf, List.map_cons, List.pairwise_cons] at h
    obtain ⟨hlt, hrest⟩ := h
    simp only [write]
    split
    · simp only [Wf, List.map_cons, List.pairwise_cons]
      refine ⟨?_, hlt, hrest⟩
      intro b hb
      simp only [List.mem_cons] at hb
      obtain rfl | hb := hb
      · assumption
      · exact lt_trans ‹_› (hlt b hb)
    · split
      · subst a
        exact List.pairwise_cons.2 ⟨hlt, hrest⟩
      · refine List.pairwise_cons.2 ⟨?_, ih hrest⟩
        intro b hb
        obtain ⟨c, hc, rfl⟩ := List.mem_map.1 hb
        obtain rfl | hc := mem_write hc
        · simp only
          omega
        · exact hlt _ (List.mem_map_of_mem hc)

/-- A write at q changes no popcount below q. -/
theorem onesBefore_write (bs : BlockStore) {q n : Nat} (rec : BlockRecord) (h : n ≤ q) :
    (bs.write q rec).onesBefore n = bs.onesBefore n := by
  induction n with
  | zero => rfl
  | succ n ih =>
    simp only [onesBefore]
    rw [ih (by omega), read_write_other bs rec (by omega)]

theorem onesBefore_congr {bs cs : BlockStore} {n : Nat} (h : ∀ q < n, bs.read q = cs.read q) :
    bs.onesBefore n = cs.onesBefore n := by
  induction n with
  | zero => rfl
  | succ n ih =>
    simp only [onesBefore]
    rw [ih fun q hq => h q (by omega), h n (by omega)]

end BlockStore

/-! ### MemRead and MemWrite -/

/-- Everything a MemRead that goes on can do. -/
theorem memRead_next {s t : State} {q : Nat} {k : BlockRecord → Result} (h : memRead s q k = .next t) :
    q < s.cfg.maxBlocks ∧ ∃ rec, s.store.read q = some rec ∧ k rec = .next t := by
  unfold memRead at h
  split at h
  · split at h
    · exact ⟨‹_›, _, ‹_›, h⟩
    · cases h
  · cases h

theorem memRead_of_read {s : State} {q : Nat} {rec : BlockRecord} (k : BlockRecord → Result)
    (hq : q < s.cfg.maxBlocks) (hr : s.store.read q = some rec) : memRead s q k = k rec := by
  simp [memRead, hq, hr]

/-- Everything a MemWrite that goes on can do. -/
theorem memWrite_next {s t : State} {q : Nat} {rec : BlockRecord} (h : memWrite s q rec = .next t) :
    q < s.cfg.maxBlocks ∧ t = { s with store := s.store.write q rec } := by
  unfold memWrite at h
  split at h
  · exact ⟨‹_›, by simpa using h.symm⟩
  · cases h

/-- A MemWrite keeps the store's canonical form. -/
theorem memWrite_wf {s t : State} {q : Nat} {rec : BlockRecord} (hs : s.store.Wf) (h : memWrite s q rec = .next t) :
    t.store.Wf := by
  obtain ⟨-, rfl⟩ := memWrite_next h
  exact BlockStore.write_wf hs q rec

/-- The store of a reset unit lists nothing, in canonical form. -/
theorem reset_store_wf : State.reset.store.Wf := List.Pairwise.nil

theorem memWrite_of_lt {s : State} {q : Nat} (rec : BlockRecord) (hq : q < s.cfg.maxBlocks) :
    memWrite s q rec = .next { s with store := s.store.write q rec } := by
  simp [memWrite, hq]

end Sys2Proof.Machine
end

