-- ==== Sys2Proof/Laws/Serve.lean ====
section
/-! SUPPORT. What the dispatch order (60_exceptions.md R101), closing a group and a step can do: each said once. -/

namespace Sys2Proof.Machine

/-! ### `serve` -/

theorem serve_of_faulted {s : State} (i : Instr) (c : Option FaultCode) (body : Result) (h : s.vstate = .faulted) :
    serve i c s body = .next (respond .fault 0#64 s) := by
  simp [serve, h]

theorem serve_of_illFormed {s : State} {i : Instr} (c : Option FaultCode) (body : Result) (h : s.vstate ≠ .faulted)
    (hi : i.wellFormed = false) : serve i c s body = .next (raiseFault .illegalCommand (encode i).cmd s) := by
  simp [serve, h, hi]

theorem serve_of_contract {s : State} {i : Instr} (code : FaultCode) (body : Result) (h : s.vstate ≠ .faulted)
    (hi : i.wellFormed = true) : serve i (some code) s body = .next (raiseFault code (encode i).cmd s) := by
  simp [serve, h, hi]

theorem serve_of_notLegal {s : State} {i : Instr} (body : Result) (h : s.vstate ≠ .faulted)
    (hi : i.wellFormed = true) (hl : legalIn i s.vstate = false) :
    serve i none s body = .next (respond .errState 0#64 s) := by
  simp [serve, h, hi, hl, recoverable]

theorem serve_of_legal {s : State} {i : Instr} (body : Result) (h : s.vstate ≠ .faulted)
    (hi : i.wellFormed = true) (hl : legalIn i s.vstate = true) : serve i none s body = body := by
  simp [serve, h, hi, hl]

/-- Everything a served command that goes on can do: one of the five ways of 60_exceptions.md R101. -/
theorem serve_next {i : Instr} {c : Option FaultCode} {s t : State} {body : Result}
    (h : serve i c s body = .next t) :
    (s.vstate = .faulted ∧ t = respond .fault 0#64 s) ∨
    (s.vstate ≠ .faulted ∧ i.wellFormed = false ∧ t = raiseFault .illegalCommand (encode i).cmd s) ∨
    (s.vstate ≠ .faulted ∧ i.wellFormed = true ∧ ∃ code, c = some code ∧ t = raiseFault code (encode i).cmd s) ∨
    (s.vstate ≠ .faulted ∧ i.wellFormed = true ∧ c = none ∧ legalIn i s.vstate = false ∧
      t = respond .errState 0#64 s) ∨
    (s.vstate ≠ .faulted ∧ i.wellFormed = true ∧ c = none ∧ legalIn i s.vstate = true ∧ body = .next t) := by
  by_cases hv : s.vstate = .faulted
  · rw [serve_of_faulted i c body hv] at h
    exact .inl ⟨hv, (Host.Outcome.next.inj h).symm⟩
  · by_cases hi : i.wellFormed = true
    · cases c with
      | some code =>
        rw [serve_of_contract code body hv hi] at h
        exact .inr (.inr (.inl ⟨hv, hi, code, rfl, (Host.Outcome.next.inj h).symm⟩))
      | none =>
        by_cases hl : legalIn i s.vstate = true
        · rw [serve_of_legal body hv hi hl] at h
          exact .inr (.inr (.inr (.inr ⟨hv, hi, rfl, hl, h⟩)))
        · rw [Bool.not_eq_true] at hl
          rw [serve_of_notLegal body hv hi hl] at h
          exact .inr (.inr (.inr (.inl ⟨hv, hi, rfl, hl, (Host.Outcome.next.inj h).symm⟩)))
    · rw [Bool.not_eq_true] at hi
      rw [serve_of_illFormed c body hv hi] at h
      exact .inr (.inl ⟨hv, hi, (Host.Outcome.next.inj h).symm⟩)

/-! ### Sequencing -/

@[simp] theorem andThen_next (s : State) (k : State → Result) : andThen (.next s) k = k s := rfl

theorem andThen_eq_next {r : Result} {k : State → Result} {t : State} (h : andThen r k = .next t) :
    ∃ s, r = .next s ∧ k s = .next t := by
  cases r with
  | next s => exact ⟨s, rfl, h⟩
  | fault e => cases h
  | refused e => cases h

/-! ### Closing a group -/

/-- The state after a group of g words is closed (42_vector_load.md R83). -/
def closedGroup (g : Nat) (s : State) : State :=
  { s with
    store := s.store.write s.bidx.toNat (makeBlock s.cfg.impl s.gbuf g (s.running.extractLsb' 0 40))
    running := BitVec.ofNat 41 (s.running.toNat + groupCount s.cfg.impl s.gbuf g)
    bidx := s.bidx + 1#33
    gcnt := 0#3 }

theorem closeGroup_of_lt {s : State} (g : Nat) (h : s.bidx.toNat < s.cfg.maxBlocks) :
    closeGroup g s = .next (closedGroup g s) := by
  simp [closeGroup, memWrite_of_lt _ h, closedGroup]

theorem closeGroup_next {g : Nat} {s t : State} (h : closeGroup g s = .next t) :
    s.bidx.toNat < s.cfg.maxBlocks ∧ t = closedGroup g s := by
  obtain ⟨u, hu, ht⟩ := andThen_eq_next h
  obtain ⟨hlt, rfl⟩ := memWrite_next hu
  exact ⟨hlt, (Host.Outcome.next.inj ht).symm⟩

theorem closeGroup_eq (g : Nat) (s : State) :
    closeGroup g s = if s.bidx.toNat < s.cfg.maxBlocks then .next (closedGroup g s) else .fault .noSuchBlock := by
  split
  · exact closeGroup_of_lt g ‹_›
  · simp [closeGroup, memWrite, andThen, *]

/-- The rest of LOAD_WORD by its three cases: the last word, a full group, room left (42_vector_load.md R83). -/
theorem afterWord_eq (m : Fin 4) (s : State) :
    afterWord m s =
      if s.wDone = s.wTotal then
        if s.bidx.toNat < s.cfg.maxBlocks then
          .next (respond .ok 0#64 { closedGroup (m.val + 1) s with vstate := .ready })
        else .fault .noSuchBlock
      else if m.val + 1 = 4 then
        if s.bidx.toNat < s.cfg.maxBlocks then .next (respond .ok 0#64 (closedGroup (m.val + 1) s))
        else .fault .noSuchBlock
      else .next (respond .ok 0#64 { s with gcnt := BitVec.ofNat 3 (m.val + 1) }) := by
  simp only [afterWord, closeGroup_eq]
  split_ifs <;> rfl

/-- Everything the rest of LOAD_WORD can do (42_vector_load.md R83). -/
theorem afterWord_next {m : Fin 4} {s t : State} (h : afterWord m s = .next t) :
    (s.wDone = s.wTotal ∧ s.bidx.toNat < s.cfg.maxBlocks ∧
      t = respond .ok 0#64 { closedGroup (m.val + 1) s with vstate := .ready }) ∨
    (s.wDone ≠ s.wTotal ∧ m.val + 1 = 4 ∧ s.bidx.toNat < s.cfg.maxBlocks ∧
      t = respond .ok 0#64 (closedGroup (m.val + 1) s)) ∨
    (s.wDone ≠ s.wTotal ∧ m.val + 1 ≠ 4 ∧
      t = respond .ok 0#64 { s with gcnt := BitVec.ofNat 3 (m.val + 1) }) := by
  unfold afterWord at h
  dsimp only at h
  split at h
  · obtain ⟨u, hu, ht⟩ := andThen_eq_next h
    obtain ⟨hlt, rfl⟩ := closeGroup_next hu
    exact .inl ⟨‹_›, hlt, (Host.Outcome.next.inj ht).symm⟩
  · split at h
    · obtain ⟨u, hu, ht⟩ := andThen_eq_next h
      obtain ⟨hlt, rfl⟩ := closeGroup_next hu
      exact .inr (.inl ⟨‹_›, ‹_›, hlt, (Host.Outcome.next.inj ht).symm⟩)
    · exact .inr (.inr ⟨‹_›, ‹_›, (Host.Outcome.next.inj h).symm⟩)

end Sys2Proof.Machine
end

