-- ==== Sys2Proof/Laws/Popcount.lean ====
section
/-! SUPPORT. Counting true positions, the six masks of the SWAR network, and the fields of an encoded record. -/

namespace Sys2Proof.Machine

/-! ### `countTrue` -/

theorem countTrue_le (f : Nat → Bool) (n : Nat) : countTrue f n ≤ n := by
  induction n with
  | zero => simp [countTrue]
  | succ n ih =>
    have := Bool.toNat_le (f n)
    simp only [countTrue]
    omega

theorem countTrue_congr {f g : Nat → Bool} {n : Nat} (h : ∀ k < n, f k = g k) : countTrue f n = countTrue g n := by
  induction n with
  | zero => rfl
  | succ n ih => simp only [countTrue, ih fun k hk => h k (by omega), h n (by omega)]

/-- Counting up to m + n: the first m, then the next n. -/
theorem countTrue_add (f : Nat → Bool) (m n : Nat) :
    countTrue f (m + n) = countTrue f m + countTrue (fun k => f (m + k)) n := by
  induction n with
  | zero => simp [countTrue]
  | succ n ih =>
    rw [← Nat.add_assoc]
    simp only [countTrue, ih]
    omega

theorem countTrue_of_false {f : Nat → Bool} {n : Nat} (h : ∀ k < n, f k = false) : countTrue f n = 0 := by
  induction n with
  | zero => rfl
  | succ n ih => simp [countTrue, ih fun k hk => h k (by omega), h n (by omega)]

theorem popcnt_le (w : Word) : popcnt w ≤ 64 := countTrue_le _ _

@[simp] theorem popcnt_zero : popcnt 0#64 = 0 := countTrue_of_false (by simp)

@[simp] theorem popcount_hw (w : Word) : popcount .hw w = popcnt w := rfl

/-! ### The masks of 40_popcount.md R69 -/

@[simp] theorem swarMask_1 : swarMask 1 = 0x5555555555555555#64 := by decide
@[simp] theorem swarMask_2 : swarMask 2 = 0x3333333333333333#64 := by decide
@[simp] theorem swarMask_4 : swarMask 4 = 0x0F0F0F0F0F0F0F0F#64 := by decide
@[simp] theorem swarMask_8 : swarMask 8 = 0x00FF00FF00FF00FF#64 := by decide
@[simp] theorem swarMask_16 : swarMask 16 = 0x0000FFFF0000FFFF#64 := by decide
@[simp] theorem swarMask_32 : swarMask 32 = 0x00000000FFFFFFFF#64 := by decide

/-! ### The encoder's record -/

@[simp] theorem makeBlock_payload (p : PopcntImpl) (w : Quad) (n : Nat) (off : BitVec 40) :
    (makeBlock p w n off).payload = padded w n := rfl

@[simp] theorem makeBlock_largeLo (p : PopcntImpl) (w : Quad) (n : Nat) (off : BitVec 40) :
    (makeBlock p w n off).largeLo = off.extractLsb' 0 32 := rfl

@[simp] theorem makeBlock_largeHi (p : PopcntImpl) (w : Quad) (n : Nat) (off : BitVec 40) :
    (makeBlock p w n off).largeHi = off.extractLsb' 32 8 := rfl

@[simp] theorem padded_get (w : Quad) (n : Nat) (m : Fin 4) :
    (padded w n).get m = if m.val < n then w.get m else 0#64 := by
  fin_cases m <;> rfl

/-- The padded words depend on the first n words only. -/
theorem padded_congr {v w : Quad} {n : Nat} (h : ∀ m : Fin 4, m.val < n → v.get m = w.get m) :
    padded v n = padded w n := by
  refine Quad.ext_get fun m => ?_
  rw [padded_get, padded_get]
  split
  · exact h m ‹_›
  · rfl

/-- A record depends on the first n words only (42_vector_load.md R83: stale entries are ignored). -/
theorem makeBlock_congr (p : PopcntImpl) {v w : Quad} {n : Nat} (off : BitVec 40)
    (h : ∀ m : Fin 4, m.val < n → v.get m = w.get m) : makeBlock p v n off = makeBlock p w n off := by
  simp only [makeBlock, padded_congr h]

theorem groupCount_congr (p : PopcntImpl) {v w : Quad} {n : Nat}
    (h : ∀ m : Fin 4, m.val < n → v.get m = w.get m) : groupCount p v n = groupCount p w n := by
  simp only [groupCount, padded_congr h]

end Sys2Proof.Machine
end

