-- ==== Sys2Proof/Laws/Exec.lean ====
section
/-! SUPPORT. What a command and a step can do, each said once: if `exec` goes on, its effect is one of those listed, so
that a later proof is a case analysis and unfolds no meaning. -/

namespace Sys2Proof.Machine

/-- When a command answers a recoverable error (60_exceptions.md R100). -/
inductive ErrorCondition (s : State) : Instr → Rsp → Prop
  | alloc (n : Word) (h : 256 * s.cfg.maxBlocks < n.toNat) : ErrorCondition s (.loadBegin n) .errAlloc
  | offset (off : Word) (h : 2 ^ 40 ≤ off.toNat) : ErrorCondition s (.stageOffset off) .errRange
  | access (a : Word) (h : a.toInt < 0 ∨ (s.len.toNat : Int) ≤ a.toInt) : ErrorCondition s (.access a) .errRange
  | rank1 (a : Word) (h : (s.len.toNat : Int) < a.toInt) : ErrorCondition s (.rank1 a) .errRange
  | readBlock (k : FField) (q : Word) (h : s.nb.toNat ≤ q.toNat) : ErrorCondition s (.readBlock k q) .errRange
  | word (w : Word) (h : s.vstate = .empty ∨ s.vstate = .ready) : ErrorCondition s (.loadWord w) .errState
  | length (h : s.vstate = .loading) : ErrorCondition s .length .errState
  | accessEarly (a : Word) (h : s.vstate = .loading) : ErrorCondition s (.access a) .errState
  | rank1Early (a : Word) (h : s.vstate = .loading) : ErrorCondition s (.rank1 a) .errState
  | readBlockEarly (k : FField) (q : Word) (h : s.vstate = .loading) : ErrorCondition s (.readBlock k q) .errState

/-- When a command raises a fatal fault (60_exceptions.md R99, R101). -/
inductive FaultCondition (s : State) : Instr → FaultCode → Prop
  | illFormed (i : Instr) (h : i.wellFormed = false) : FaultCondition s i .illegalCommand
  | populated (n : Word) (h : s.vstate = .loading ∨ s.vstate = .ready) : FaultCondition s (.loadBegin n) .loadNotEmpty
  | badCount (count : FField) (h : count.legalCount = false) : FaultCondition s (.encode count) .encodeCount

theorem FaultCondition.code_ne {s : State} {i : Instr} {code : FaultCode} (h : FaultCondition s i code) :
    code ≠ .none := by
  cases h <;> decide

/-- The next states a command can have. -/
inductive Effect (s : State) : Instr → State → Prop
  | inFaulted (i : Instr) (hi : i ≠ .status) (hv : s.vstate = .faulted) : Effect s i (respond .fault 0#64 s)
  | raised (i : Instr) (code : FaultCode) (hc : FaultCondition s i code) (hv : s.vstate ≠ .faulted) :
      Effect s i (raiseFault code (encode i).cmd s)
  | error (i : Instr) (rsp : Rsp) (hv : s.vstate ≠ .faulted) (h : ErrorCondition s i rsp) :
      Effect s i (respond rsp 0#64 s)
  | answered (i : Instr) (v : Word) (hi : readsOnly i = true) (hv : s.vstate = .faulted → i = .status) :
      Effect s i (respond .ok v s)
  | cleared (hv : s.vstate ≠ .faulted) : Effect s .clear (respond .ok 0#64 (clearVector s))
  | begun (n : Word) (hv : s.vstate = .empty) (hn : n.toNat ≤ 256 * s.cfg.maxBlocks) :
      Effect s (.loadBegin n) (respond .ok 0#64 (beginLoad n.toNat s))
  | staged (j : FField) (w : Word) (hv : s.vstate ≠ .faulted) :
      Effect s (.stageWord j w) (respond .ok 0#64 { s with stage := s.stage.set (stageSlot j) w })
  | offsetStaged (off : Word) (hv : s.vstate ≠ .faulted) (h : off.toNat < 2 ^ 40) :
      Effect s (.stageOffset off) (respond .ok 0#64 { s with soff := off.extractLsb' 0 40 })
  | encoded (count : FField) (hv : s.vstate ≠ .faulted) (h : count.legalCount = true) :
      Effect s (.encode count)
        (respond .ok 0#64 { s with encOut := makeBlock s.cfg.impl s.stage count.toNat s.soff })
  | buffered (w : Word) (m : Fin 4) (hv : s.vstate = .loading) (hm : m.val = s.gcnt.toNat)
      (hw : s.wDone + 1#35 ≠ s.wTotal) (h4 : m.val + 1 ≠ 4) :
      Effect s (.loadWord w) (respond .ok 0#64 { takeWord m w s with gcnt := BitVec.ofNat 3 (m.val + 1) })
  | closed (w : Word) (m : Fin 4) (hv : s.vstate = .loading) (hm : m.val = s.gcnt.toNat)
      (hw : s.wDone + 1#35 ≠ s.wTotal) (h4 : m.val + 1 = 4) (hb : s.bidx.toNat < s.cfg.maxBlocks) :
      Effect s (.loadWord w) (respond .ok 0#64 (closedGroup (m.val + 1) (takeWord m w s)))
  | finished (w : Word) (m : Fin 4) (hv : s.vstate = .loading) (hm : m.val = s.gcnt.toNat)
      (hw : s.wDone + 1#35 = s.wTotal) (hb : s.bidx.toNat < s.cfg.maxBlocks) :
      Effect s (.loadWord w)
        (respond .ok 0#64 { closedGroup (m.val + 1) (takeWord m w s) with vstate := .ready })

theorem loadContract_cause {s : State} {n : Word} {code : FaultCode} (h : loadContract s.vstate = some code) :
    FaultCondition s (.loadBegin n) code := by
  unfold loadContract at h
  split at h
  · cases h
    exact .populated n ‹_›
  · cases h

theorem encodeContract_cause {s : State} {count : FField} {code : FaultCode} (h : encodeContract count = some code) :
    FaultCondition s (.encode count) code := by
  unfold encodeContract at h
  split at h
  · cases h
  · cases h
    exact .badCount count (Bool.not_eq_true _ ▸ ‹¬_›)

/-- A served command that goes on has one of the dispatch order's effects, or its body goes on. -/
theorem serve_effect {i : Instr} {c : Option FaultCode} {s t : State} {body : Result} (hi : i ≠ .status)
    (hc : ∀ code, c = some code → FaultCondition s i code)
    (hl : s.vstate ≠ .faulted → c = none → legalIn i s.vstate = false → ErrorCondition s i .errState)
    (hb : s.vstate ≠ .faulted → c = none → legalIn i s.vstate = true → body = .next t → Effect s i t)
    (h : serve i c s body = .next t) : Effect s i t := by
  obtain ⟨hv, rfl⟩ | ⟨hv, hw, rfl⟩ | ⟨hv, -, code, hcode, rfl⟩ | ⟨hv, -, hn, hleg, rfl⟩ | ⟨hv, -, hn, hleg, hbody⟩ :=
    serve_next h
  · exact .inFaulted i hi hv
  · exact .raised i _ (.illFormed i hw) hv
  · exact .raised i code (hc code hcode) hv
  · exact .error i _ hv (hl hv hn hleg)
  · exact hb hv hn hleg hbody

/-- A body that only answers. -/
theorem done_effect {i : Instr} {s t : State} {v : Word} (hi : readsOnly i = true) (hv : s.vstate ≠ .faulted)
    (h : done v s = .next t) : Effect s i t := by
  cases h
  exact .answered i v hi fun hf => absurd hf hv

theorem notLive {s : State} (hv : s.vstate ≠ .faulted) (h : (s.vstate != .faulted) = false) : False := by
  simp_all

theorem loading_of {s : State} (hv : s.vstate ≠ .faulted) (h : (s.vstate == .empty || s.vstate == .ready) = false) :
    s.vstate = .loading := by
  cases hs : s.vstate <;> simp_all

/-- Everything a command that goes on can do. -/
theorem exec_effect {i : Instr} {s t : State} (h : exec i s = .next t) : Effect s i t := by
  cases i with
  | nop =>
    unfold exec execNop at h
    exact serve_effect (by simp) (by simp) (by simp [legalIn]) (fun hv _ _ => done_effect rfl hv) h
  | clear =>
    unfold exec execClear at h
    refine serve_effect (by simp) (by simp) (fun hv _ hl => (notLive hv hl).elim) (fun hv _ _ hb => ?_) h
    cases hb
    exact .cleared hv
  | loadBegin n =>
    unfold exec execLoadBegin at h
    refine serve_effect (by simp) (fun _ => loadContract_cause) (fun hv hn hl => ?_) (fun hv hn hl hb => ?_) h
    · unfold loadContract at hn
      cases hs : s.vstate <;> simp_all [legalIn]
    · split at hb
      · cases hb
        exact .error _ _ hv (.alloc n ‹_›)
      · cases hb
        exact .begun n (by simpa [legalIn] using hl) (by omega)
  | loadWord w =>
    unfold exec execLoadWord at h
    refine serve_effect (by simp) (by simp) (fun hv _ hl => .word w ?_) (fun hv _ hl hb => ?_) h
    · cases hs : s.vstate <;> simp_all [legalIn]
    · have hload : s.vstate = .loading := by simpa [legalIn] using hl
      split at hb
      · rename_i hg
        obtain ⟨hw, hlt, rfl⟩ | ⟨hw, h4, hlt, rfl⟩ | ⟨hw, h4, rfl⟩ := afterWord_next hb
        · exact .finished w ⟨_, hg⟩ hload rfl hw hlt
        · exact .closed w ⟨_, hg⟩ hload rfl hw h4 hlt
        · exact .buffered w ⟨_, hg⟩ hload rfl hw h4
      · cases hb
  | popcnt w =>
    unfold exec execPopcnt at h
    exact serve_effect (by simp) (by simp) (fun hv _ hl => (notLive hv hl).elim) (fun hv _ _ => done_effect rfl hv) h
  | stageWord j w =>
    unfold exec execStageWord at h
    refine serve_effect (by simp) (by simp) (fun hv _ hl => (notLive hv hl).elim) (fun hv _ _ hb => ?_) h
    cases hb
    exact .staged j w hv
  | stageOffset off =>
    unfold exec execStageOffset at h
    refine serve_effect (by simp) (by simp) (fun hv _ hl => (notLive hv hl).elim) (fun hv _ _ hb => ?_) h
    split at hb
    · cases hb
      exact .error _ _ hv (.offset off ‹_›)
    · cases hb
      exact .offsetStaged off hv (by omega)
  | encode count =>
    unfold exec execEncode at h
    refine serve_effect (by simp) (fun _ => encodeContract_cause) (fun hv _ hl => (notLive hv hl).elim)
      (fun hv hn _ hb => ?_) h
    cases hb
    refine .encoded count hv ?_
    unfold encodeContract at hn
    split at hn
    · assumption
    · cases hn
  | readEnc k =>
    unfold exec execReadEnc at h
    exact serve_effect (by simp) (by simp) (fun hv _ hl => (notLive hv hl).elim) (fun hv _ _ => done_effect rfl hv) h
  | length =>
    unfold exec execLength at h
    exact serve_effect (by simp) (by simp) (fun hv _ hl => .length (loading_of hv hl))
      (fun hv _ _ => done_effect rfl hv) h
  | access a =>
    unfold exec execAccess at h
    refine serve_effect (by simp) (by simp) (fun hv _ hl => .accessEarly a (loading_of hv hl)) (fun hv _ _ hb => ?_) h
    dsimp only at hb
    split at hb
    · cases hb
      exact .error _ _ hv (.access a ‹_›)
    · obtain ⟨-, rec, -, hk⟩ := memRead_next hb
      exact done_effect rfl hv hk
  | rank1 a =>
    unfold exec execRank1 at h
    refine serve_effect (by simp) (by simp) (fun hv _ hl => .rank1Early a (loading_of hv hl)) (fun hv _ _ hb => ?_) h
    dsimp only at hb
    split at hb
    · exact done_effect rfl hv hb
    · split at hb
      · cases hb
        exact .error _ _ hv (.rank1 a ‹_›)
      · split at hb
        · exact done_effect rfl hv hb
        · obtain ⟨-, rec, -, hk⟩ := memRead_next hb
          exact done_effect rfl hv hk
  | readBlock k q =>
    unfold exec execReadBlock at h
    refine serve_effect (by simp) (by simp) (fun hv _ hl => .readBlockEarly k q (loading_of hv hl))
      (fun hv _ _ hb => ?_) h
    split at hb
    · cases hb
      exact .error _ _ hv (.readBlock k q ‹_›)
    · obtain ⟨-, rec, -, hk⟩ := memRead_next hb
      exact done_effect rfl hv hk
  | status =>
    cases h
    exact .answered _ _ rfl fun _ => rfl

/-- Everything a step that goes on can do: wait, reset, or serve a request that does or does not decode. -/
theorem step_next {s t : State} (h : step s = .next t) :
    (s.inbox = [] ∧ t = idleStep s) ∨
    (∃ cutOff rest, s.inbox = .reset cutOff :: rest ∧ t = takeReset s rest) ∨
    (∃ r rest why, s.inbox = .request r :: rest ∧ decode r = .illegal why ∧
      ((s.vstate = .faulted ∧ t = respond .fault 0#64 (s.taking rest)) ∨
       (s.vstate ≠ .faulted ∧ t = raiseFault .illegalCommand r.cmd (s.taking rest)))) ∨
    (∃ r rest i, s.inbox = .request r :: rest ∧ decode r = .instr i ∧ exec i (s.taking rest) = .next t) := by
  unfold step arrival at h
  cases hin : s.inbox with
  | nil =>
    rw [hin] at h
    exact .inl ⟨rfl, (Host.Outcome.next.inj h).symm⟩
  | cons a rest =>
    rw [hin] at h
    cases a with
    | reset cutOff => exact .inr (.inl ⟨cutOff, rest, rfl, (Host.Outcome.next.inj h).symm⟩)
    | request r =>
      cases hd : decode r with
      | illegal why =>
        simp only [hd, serveIllegal] at h
        refine .inr (.inr (.inl ⟨r, rest, why, rfl, hd, ?_⟩))
        split at h
        · exact .inl ⟨‹_›, (Host.Outcome.next.inj h).symm⟩
        · exact .inr ⟨‹_›, (Host.Outcome.next.inj h).symm⟩
      | instr i =>
        simp only [hd] at h
        exact .inr (.inr (.inr ⟨r, rest, i, rfl, hd, h⟩))

end Sys2Proof.Machine
end

