-- ==== Sys2Proof/Laws/PerInstr.lean ====
section
/-! SUPPORT. The per-instruction family `EncodedFields`: the encoder puts the OPC of 30_encoding.md R58 in CMD[15:8],
zeros in CMD[7:3] and the function field in CMD[2:0]. -/

namespace Sys2Proof.Laws

/-- The three fields of a command word built from an OPC and an F. -/
theorem commandWord_fields (opc : BitVec 8) (f : FField) :
    (commandWord opc f).opc = opc ∧ (commandWord opc f).z = 0#5 ∧ (commandWord opc f).f = f := by
  refine ⟨?_, ?_, ?_⟩ <;> ext k hk <;>
    simp only [commandWord, CmdWord.opc, CmdWord.z, CmdWord.f, BitVec.getElem_extractLsb', BitVec.getLsbD_append]
  · rw [if_neg (by omega), if_neg (by omega), BitVec.getElem_eq_testBit_toNat, BitVec.getLsbD]
    congr 1
    omega
  · rw [if_neg (by omega), if_pos (by omega)]
    simp
  · rw [if_pos (by omega), BitVec.getElem_eq_testBit_toNat, BitVec.getLsbD, Nat.zero_add]

/-- The fields of an instruction's command word. -/
def EncodedFields.Statement (i : Instr) : Prop :=
  (encode i).cmd.opc = i.opcode ∧ (encode i).cmd.z = 0#5 ∧ (encode i).cmd.f = i.field ∧ (encode i).arg = i.arg

theorem encodedFields_of (i : Instr) : EncodedFields.Statement i :=
  ⟨(commandWord_fields _ _).1, (commandWord_fields _ _).2.1, (commandWord_fields _ _).2.2, rfl⟩

theorem EncodedFields.nop : EncodedFields.Statement .nop := encodedFields_of _
theorem EncodedFields.clear : EncodedFields.Statement .clear := encodedFields_of _
theorem EncodedFields.loadBegin (n : Word) : EncodedFields.Statement (.loadBegin n) := encodedFields_of _
theorem EncodedFields.loadWord (w : Word) : EncodedFields.Statement (.loadWord w) := encodedFields_of _
theorem EncodedFields.popcnt (w : Word) : EncodedFields.Statement (.popcnt w) := encodedFields_of _
theorem EncodedFields.stageWord (j : FField) (w : Word) : EncodedFields.Statement (.stageWord j w) := encodedFields_of _
theorem EncodedFields.stageOffset (off : Word) : EncodedFields.Statement (.stageOffset off) := encodedFields_of _
theorem EncodedFields.encode (n : FField) : EncodedFields.Statement (.encode n) := encodedFields_of _
theorem EncodedFields.readEnc (k : FField) : EncodedFields.Statement (.readEnc k) := encodedFields_of _
theorem EncodedFields.length : EncodedFields.Statement .length := encodedFields_of _
theorem EncodedFields.access (i : Word) : EncodedFields.Statement (.access i) := encodedFields_of _
theorem EncodedFields.rank1 (i : Word) : EncodedFields.Statement (.rank1 i) := encodedFields_of _
theorem EncodedFields.readBlock (k : FField) (q : Word) : EncodedFields.Statement (.readBlock k q) := encodedFields_of _
theorem EncodedFields.status : EncodedFields.Statement .status := encodedFields_of _

end Sys2Proof.Laws
end

