-- ==== Sys2Proof/Laws/Runs.lean ====
section
/-! SUPPORT. Laws of a run of steps: the run, its responses and its end, after a step that goes on. -/

namespace Sys2Proof.Machine

theorem run_succ_of_next {s t : State} (h : step s = .next t) (n : Nat) :
    Host.Core.run Sys2Proof.core (n + 1) s = Host.Core.run Sys2Proof.core n t := by
  have h' : Sys2Proof.core.step s = .next t := h
  simp only [Host.Core.run, h']

theorem responses_succ_of_next {s t : State} (h : step s = .next t) (n : Nat) :
    responses (n + 1) s = t.response.toList ++ responses n t := by
  simp only [responses, h]

/-- The end of a run that goes on. -/
theorem ending_of_run {n : Nat} {s t : State} (h : Host.Core.run Sys2Proof.core n s = .next t) :
    ending n s = if t.vstate = .faulted then .faultOutcome t else .finished t := by
  unfold ending
  rw [show (Host.Core.run Sys2Proof.core n s : Host.Outcome State Fault Refusal) = .next t from h]

@[simp] theorem isFinal_finished (s : State) : (Ending.finished s).isFinal = true := rfl
@[simp] theorem isFinal_faultOutcome (s : State) : (Ending.faultOutcome s).isFinal = false := rfl
@[simp] theorem isFinal_stopped : Ending.stopped.isFinal = false := rfl

end Sys2Proof.Machine
end

