-- ==== Sys2Proof/Tests/Slice0.lean ====
section
/-! SUPPORT. Tests of the model against values the spec gives (95_test_vectors.md, cited at each), and for every
statement with hypotheses a concrete state and operands that meet them. -/

namespace Sys2Proof.Tests

open Sys2Proof Sys2Proof.Machine

/-! ### Helpers -/

/-- The state a command or a step goes on to, if it goes on. -/
def nextOf : Result → Option State
  | .next t => some t
  | .fault _ => none
  | .refused _ => none

/-- The response a command or a step gives. -/
def answer (r : Result) : Option Response := (nextOf r).bind State.response

/-- Answers OK with a value. -/
def ok (v : Word) : Option Response := some { rsp := .ok, result := v }

/-- Answers a status with RESULT 0. -/
def zeroWith (r : Rsp) : Option Response := some { rsp := r, result := 0#64 }

/-- A state with one request waiting. -/
def asked (s : State) (cmd : CmdWord) (arg : Word := 0#64) : State := placeRequest s { cmd := cmd, arg := arg }

/-- A Quad from its registers. -/
def quad (a b c d : Word) : Quad := { w0 := a, w1 := b, w2 := c, w3 := d }

def ones : Word := 0xFFFFFFFFFFFFFFFF#64

/-! ### States of 95_test_vectors.md -/

/-- BS[0] of program P7's end state. -/
def recA : BlockRecord :=
  { largeLo := 0#32, largeHi := 0#8, small0 := 8#8, small1 := 16#8, small2 := 24#8,
    payload := quad 0xFF#64 0xFF#64 0xFF#64 0xFF#64 }

/-- BS[1] of program P7's end state. -/
def recB : BlockRecord :=
  { largeLo := 0x20#32, largeHi := 0#8, small0 := 1#8, small1 := 1#8, small2 := 1#8,
    payload := quad 0x8000000000000000#64 0#64 0#64 0#64 }

/-- Program P7 after row 1 (LOAD_BEGIN 300). -/
def begun300 : State :=
  { State.reset with vstate := .loading, len := 300#41, nb := 2#33, wTotal := 5#35 }

/-- Program P7 after row 3: GCNT = 2. -/
def two300 : State := { begun300 with wDone := 2#35, gcnt := 2#3, gbuf := quad 0xFF#64 0xFF#64 0#64 0#64 }

/-- Program P7 after row 11: GCNT = 3. -/
def three300 : State := { begun300 with wDone := 3#35, gcnt := 3#3, gbuf := quad 0xFF#64 0xFF#64 0xFF#64 0#64 }

/-- Program P7 after row 12: BS[0] is written, one word is missing. -/
def last300 : State :=
  { begun300 with
    wDone := 4#35, gbuf := quad 0xFF#64 0xFF#64 0xFF#64 0xFF#64, bidx := 1#33, running := 32#41,
    store := [(0, recA)] }

/-- Program P7's end state, as far as the vector goes. -/
def ready300 : State :=
  { begun300 with
    vstate := .ready, wDone := 5#35, gbuf := quad 0x8000000000000000#64 0xFF#64 0xFF#64 0xFF#64, bidx := 2#33,
    running := 33#41, store := [(0, recA), (1, recB)] }

/-- A load of 256 bits with its last word missing. -/
def three256 : State := { three300 with len := 256#41, nb := 1#33, wTotal := 4#35 }

/-- A READY vector of 256 bits: one full block. -/
def ready256 : State :=
  { last300 with vstate := .ready, len := 256#41, nb := 1#33, wTotal := 4#35 }

/-- Scenario S1: READY with LEN = 0. -/
def ready0 : State := { State.reset with vstate := .ready }

/-- FAULTED by LOAD_BEGIN in LOADING (section 2.4). -/
def faulted : State := { begun300 with vstate := .faulted, faultCode := .loadNotEmpty, faultCmd := 0x0200#16 }

/-! ### These states meet the invariant -/

theorem recA_good : recA.Good 4 0 := ⟨by decide, by decide, by decide, by decide, by decide⟩

theorem recB_good : recB.Good 1 32 := ⟨by decide, by decide, by decide, by decide, by decide⟩

/-- What the invariant asks of a store, its group sizes and its BIDX holds of the first n of P7's two records. -/
theorem records_300 (bs : BlockStore) (count : Nat → Nat) (n : Nat) (hn : n ≤ 2)
    (h0 : 1 ≤ n → bs.read 0 = some recA ∧ count 0 = 4) (h1 : 2 ≤ n → bs.read 1 = some recB ∧ count 1 = 1) :
    ∀ q < n, ∃ r, bs.read q = some r ∧ r.Good (count q) (bs.onesBefore q) := by
  intro q hq
  have hones : 1 ≤ n → bs.onesBefore 1 = 32 := fun h => by
    simp only [BlockStore.onesBefore, (h0 h).1]
    decide
  obtain rfl | rfl : q = 0 ∨ q = 1 := by omega
  · obtain ⟨hr, hc⟩ := h0 (by omega)
    exact ⟨recA, hr, by rw [hc]; exact recA_good⟩
  · obtain ⟨hr, hc⟩ := h1 (by omega)
    exact ⟨recB, hr, by rw [hc, hones (by omega)]; exact recB_good⟩

theorem inv_loading (s : State) (hs : s = begun300 ∨ s = two300 ∨ s = three300 ∨ s = three256) : s.Inv := by
  obtain rfl | rfl | rfl | rfl := hs
  all_goals
    exact
      { config_legal := by decide, store_wf := by decide, store_bound := by decide, len_le := by decide
        nb_eq := by decide, wTotal_eq := by decide, gcnt_le := by decide, bidx_le := by decide
        records_good := fun q hq => absurd hq (Nat.not_lt_zero q), running_eq := by decide
        phase := And.intro (by decide) (And.intro (by decide) (by decide))
        fault_record := And.intro rfl rfl }

theorem inv_last300 : last300.Inv where
  config_legal := by decide
  store_wf := by decide
  store_bound := by decide
  len_le := by decide
  nb_eq := by decide
  wTotal_eq := by decide
  gcnt_le := by decide
  bidx_le := by decide
  records_good := records_300 last300.store (wordsInBlock last300.wTotal.toNat) 1 (by decide)
    (fun _ => ⟨rfl, rfl⟩) (by decide)
  running_eq := by decide
  phase := And.intro (by decide) (And.intro (by decide) (by decide))
  fault_record := And.intro rfl rfl

theorem inv_ready300 : ready300.Inv where
  config_legal := by decide
  store_wf := by decide
  store_bound := by decide
  len_le := by decide
  nb_eq := by decide
  wTotal_eq := by decide
  gcnt_le := by decide
  bidx_le := by decide
  records_good := records_300 ready300.store (wordsInBlock ready300.wTotal.toNat) 2 (by decide)
    (fun _ => ⟨rfl, rfl⟩) (fun _ => ⟨rfl, rfl⟩)
  running_eq := by decide
  phase := And.intro rfl (And.intro rfl rfl)
  fault_record := And.intro rfl rfl

theorem inv_ready256 : ready256.Inv where
  config_legal := by decide
  store_wf := by decide
  store_bound := by decide
  len_le := by decide
  nb_eq := by decide
  wTotal_eq := by decide
  gcnt_le := by decide
  bidx_le := by decide
  records_good := records_300 ready256.store (wordsInBlock ready256.wTotal.toNat) 1 (by decide)
    (fun _ => ⟨rfl, rfl⟩) (by decide)
  running_eq := by decide
  phase := And.intro rfl (And.intro rfl rfl)
  fault_record := And.intro rfl rfl

theorem inv_empty (s : State) (hs : s = State.reset ∨ s = ready0) : s.Inv := by
  obtain rfl | rfl := hs
  · exact
      { config_legal := by decide, store_wf := by decide, store_bound := by decide, len_le := by decide
        nb_eq := by decide, wTotal_eq := by decide, gcnt_le := by decide, bidx_le := by decide
        records_good := fun q hq => absurd hq (Nat.not_lt_zero q), running_eq := by decide
        phase :=
          And.intro rfl (And.intro rfl (And.intro rfl (And.intro rfl (And.intro rfl (And.intro rfl rfl)))))
        fault_record := And.intro rfl rfl }
  · exact
      { config_legal := by decide, store_wf := by decide, store_bound := by decide, len_le := by decide
        nb_eq := by decide, wTotal_eq := by decide, gcnt_le := by decide, bidx_le := by decide
        records_good := fun q hq => absurd hq (Nat.not_lt_zero q), running_eq := by decide
        phase := And.intro rfl (And.intro rfl rfl)
        fault_record := And.intro rfl rfl }

theorem inv_faulted : faulted.Inv where
  config_legal := by decide
  store_wf := by decide
  store_bound := by decide
  len_le := by decide
  nb_eq := by decide
  wTotal_eq := by decide
  gcnt_le := by decide
  bidx_le := by decide
  records_good := fun q hq => absurd hq (Nat.not_lt_zero q)
  running_eq := by decide
  phase := trivial
  fault_record := by decide

/-- The invariant does not speak of the inbox or the response port. -/
theorem inv_inbox {s : State} (h : s.Inv) (inbox : List HostInput) : { s with inbox := inbox }.Inv :=
  { config_legal := h.config_legal, store_wf := h.store_wf, store_bound := h.store_bound, len_le := h.len_le
    nb_eq := h.nb_eq, wTotal_eq := h.wTotal_eq, gcnt_le := h.gcnt_le, bidx_le := h.bidx_le
    records_good := h.records_good, running_eq := h.running_eq, phase := h.phase, fault_record := h.fault_record }

/-! ### WellFormed refuses ill-formed terms (30_encoding.md R60) -/

theorem test_stageWord_4_illFormed : (Instr.stageWord 4#3 0#64).wellFormed = false := by decide
theorem test_readEnc_5_illFormed : (Instr.readEnc 5#3).wellFormed = false := by decide
theorem test_readBlock_5_illFormed : (Instr.readBlock 5#3 0#64).wellFormed = false := by decide
theorem test_encode_7_wellFormed : (Instr.encode 7#3).wellFormed = true := by decide

/-! ### Decoding: CMD written as OPC (8 bits), Z (5 bits), F (3 bits) from 30_encoding.md R55, R58, R60 -/

theorem test_decode_control :
    decode { cmd := 0b00000000_00000_000#16, arg := 7#64 } = .instr .nop ∧
    decode { cmd := 0b00110000_00000_000#16, arg := 7#64 } = .instr .status := by decide

theorem test_decode_load :
    decode { cmd := 0b00000001_00000_000#16, arg := 7#64 } = .instr .clear ∧
    decode { cmd := 0b00000010_00000_000#16, arg := 7#64 } = .instr (.loadBegin 7#64) ∧
    decode { cmd := 0b00000011_00000_000#16, arg := 7#64 } = .instr (.loadWord 7#64) := by decide

theorem test_decode_encoder :
    decode { cmd := 0b00010001_00000_010#16, arg := 7#64 } = .instr (.stageWord 2#3 7#64) ∧
    decode { cmd := 0b00010010_00000_000#16, arg := 7#64 } = .instr (.stageOffset 7#64) ∧
    decode { cmd := 0b00010011_00000_011#16, arg := 7#64 } = .instr (.encode 3#3) ∧
    decode { cmd := 0b00010100_00000_100#16, arg := 7#64 } = .instr (.readEnc 4#3) := by decide

theorem test_decode_popcnt : decode { cmd := 0b00010000_00000_000#16, arg := 7#64 } = .instr (.popcnt 7#64) := by
  decide

theorem test_decode_query :
    decode { cmd := 0b00100000_00000_000#16, arg := 7#64 } = .instr .length ∧
    decode { cmd := 0b00100001_00000_000#16, arg := 7#64 } = .instr (.access 7#64) ∧
    decode { cmd := 0b00100010_00000_000#16, arg := 7#64 } = .instr (.rank1 7#64) ∧
    decode { cmd := 0b00100011_00000_001#16, arg := 7#64 } = .instr (.readBlock 1#3 7#64) := by decide

/-- Section 2.7: the illegal words listed there. -/
theorem test_illegal_words :
    [0x0001#16, 0x0400#16, 0x0F00#16, 0x1104#16, 0x1405#16, 0x2305#16, 0x2400#16, 0x3001#16, 0x3100#16].map
        (fun w => decode { cmd := w, arg := 0#64 }) =
      [.illegal .functionField, .illegal .reservedOpcode, .illegal .reservedOpcode, .illegal .functionField,
       .illegal .functionField, .illegal .functionField, .illegal .reservedOpcode, .illegal .functionField,
       .illegal .reservedOpcode] ∧
    [0x0008#16, 0x1308#16, 0xFFFF#16].map (fun w => decode { cmd := w, arg := 0#64 }) =
      [.illegal .reservedBits, .illegal .reservedBits, .illegal .reservedBits] := by decide

/-- The host's two hooks: the decoder reads the table's word, and the very next step runs it (row RANK1). -/
theorem test_withFetchWord :
    decodeTableWord 16 0x2200 = some (.rank1 0#64) ∧ decodeTableWord 16 0x1104 = none ∧
    answer (step (State.reset.withFetchWord 16 0x2200)) = ok 0#64 := by decide

/-! ### The assembler (30_encoding.md R65, lines of 95_test_vectors.md) -/

theorem test_assemble_rank1 : assembleLine "RANK1 -1" = some [{ cmd := 0x2200#16, arg := ones }] := by decide

theorem test_assemble_stage_word :
    assembleLine "STAGE_WORD 2, 0x7  # S[2]" = some [{ cmd := 0x1102#16, arg := 7#64 }] := by decide

/-- R65: a value that does not fit is refused, never truncated. -/
theorem test_assemble_refuses :
    assembleLine "ENCODE 8" = none ∧ assembleLine "POPCNT 0x10000000000000000" = none ∧
    assembleLine "POPCNT 18446744073709551616" = none := by decide

/-! ### The popcount unit -/

/-- Section 2.1, the row of 0x0123456789ABCDEF: every stage of the SWAR network. -/
theorem test_swar_stages :
    (List.range 7).map (swarAfter 0x0123456789ABCDEF#64) =
      [0x0123456789ABCDEF#64, 0x011245564556899A#64, 0x0112122312232334#64, 0x0103030503050507#64,
       0x000400080008000C#64, 0x0000000C00000014#64, 32#64] := by decide

/-- Section 2.1: 64 is the one result with bit 6 set. -/
theorem test_popcnt_ones : answer (exec (.popcnt ones) State.reset) = ok 64#64 := by decide

/-- Section 2.1, in the SWAR build. -/
theorem test_popcnt_swar :
    answer (exec (.popcnt 0xDEADBEEFCAFEF00D#64) (State.reset.builtWith .swar)) = ok 42#64 := by decide

/-! ### The block encoder -/

/-- Section 2.3, row 3 of the table: the slots at and beyond count hold the running prefix. -/
theorem test_makeBlock_count_1 :
    (makeBlock .hw (quad 1#64 3#64 7#64 0xF#64) 1 0x123456789A#40).chunk 0 = 0x010101123456789A#64 := by decide

/-- Section 2.3, rows 1 to 7 of the commands. -/
def staged : State :=
  { State.reset with stage := quad 1#64 3#64 7#64 0xF#64, soff := 0x123456789A#40 }

theorem test_stageWord :
    (nextOf (exec (.stageWord 3#3 0xF#64) State.reset)).map State.stage = some (quad 0#64 0#64 0#64 0xF#64) := by
  decide

theorem test_stageOffset_widest :
    (nextOf (exec (.stageOffset 0xFFFFFFFFFF#64) State.reset)).map State.soff = some 0xFFFFFFFFFF#40 := by decide

theorem test_stageOffset_too_wide :
    answer (exec (.stageOffset 0x10000000000#64) State.reset) = zeroWith .errRange := by decide

theorem test_encode_4 :
    (nextOf (exec (.encode 4#3) staged)).map (fun t => t.encOut.chunk 0) = some 0x060301123456789A#64 := by decide

/-- ENCODE 0 raises ENCODE_COUNT; STATUS then answers 0x13000033. -/
theorem test_encode_0 :
    answer (exec (.encode 0#3) State.reset) = zeroWith .fault ∧
    (nextOf (exec (.encode 0#3) State.reset)).map statusWord = some 0x0000000013000033#64 := by decide

theorem test_readEnc_4 :
    answer (exec (.readEnc 4#3) { staged with encOut := makeBlock .hw staged.stage 4 staged.soff }) = ok 0xF#64 := by
  decide

/-! ### The load sequencer: the rows of section 2.4 -/

theorem test_loadBegin_1024 :
    (nextOf (exec (.loadBegin 1024#64) State.reset)).map (fun t => (t.vstate, t.len, t.nb, t.wTotal)) =
      some (.loading, 1024#41, 4#33, 16#35) := by decide

theorem test_loadBegin_ready_1025 :
    answer (exec (.loadBegin 1025#64) ready0) = zeroWith .fault ∧
    answer (exec (.loadBegin 1025#64) State.reset) = zeroWith .errAlloc := by decide

theorem test_loadWord_closes :
    (nextOf (exec (.loadWord 0xFF#64) three300)).map (fun t => (t.vstate, t.wDone, t.gcnt, t.bidx, t.running)) =
      some (.loading, 4#35, 0#3, 1#33, 32#41) ∧
    (nextOf (exec (.loadWord 0xFF#64) three300)).map State.store = some [(0, recA)] := by decide

theorem test_loadWord_last :
    nextOf (exec (.loadWord 0x8000000000000000#64) last300) = some (respond .ok 0#64 ready300) := by decide

theorem test_clear_abandons_load :
    (nextOf (exec .clear two300)).map (fun t => (t.vstate, t.len, statusWord t)) = some (.empty, 0#41, 0#64) := by
  decide

/-! ### The queries: program P7 rows 16 to 18, section 2.5, section 2.2 -/

theorem test_length_loading : answer (exec .length begun300) = zeroWith .errState := by decide
theorem test_length_ready : answer (exec .length ready300) = ok 300#64 := by decide
theorem test_access : answer (exec (.access 256#64) ready300) = ok 1#64 := by decide
theorem test_access_negative : answer (exec (.access ones) ready300) = zeroWith .errRange := by decide
theorem test_rank1_within : answer (exec (.rank1 257#64) ready300) = ok 33#64 := by decide
/-- Position 256 of a 256-bit vector: q = NB, the answer is RUNNING (43_query.md R91). -/
theorem test_rank1_running : answer (exec (.rank1 256#64) ready256) = ok 32#64 := by decide
theorem test_readBlock : answer (exec (.readBlock 0#3 1#64) ready300) = ok 0x0101010000000020#64 := by decide
theorem test_readBlock_unsigned : answer (exec (.readBlock 0#3 ones) ready300) = zeroWith .errRange := by decide

theorem test_leadMask :
    [0, 1, 8, 24, 32, 63].map leadMask =
      [0#64, 0x8000000000000000#64, 0xFF00000000000000#64, 0xFFFFFF0000000000#64, 0xFFFFFFFF00000000#64,
       0xFFFFFFFFFFFFFFFE#64] := by decide

/-! ### Control and the FAULTED state: sections 2.6 and 2.8 -/

theorem test_status_gcnt : answer (exec .status two300) = ok 0x401#64 := by decide
theorem test_status_faulted : answer (exec .status faulted) = ok 0x02000023#64 := by decide
theorem test_nop : answer (exec .nop State.reset) = ok 0#64 := by decide
theorem test_nop_faulted : nextOf (exec .nop faulted) = some (respond .fault 0#64 faulted) := by decide

/-- Section 2.7, row 0x1104, on a SWAR build. -/
theorem test_illegal_word_status :
    (nextOf (step (asked (State.reset.builtWith .swar) 0x1104#16))).map statusWord = some 0x0000000011040113#64 := by
  decide

/-- An illegal word in FAULTED answers FAULT and records nothing new (section 2.8). -/
theorem test_illegal_in_faulted :
    (nextOf (step (asked faulted 0x3001#16))).map statusWord = some (statusWord faulted) := by decide

theorem test_reset_leaves_faulted :
    nextOf (step { faulted with inbox := [.reset none] }) = some State.reset := by decide

/-! ### Witnesses: for each statement with hypotheses, values that meet them all, clause by clause -/

theorem witness_ResetInputResets :
    { faulted with inbox := [.reset (some { cmd := 0#16, arg := 0#64 })] }.inbox =
      .reset (some { cmd := 0#16, arg := 0#64 }) :: [] ∧
    faulted.vstate = .faulted ∧ step { faulted with inbox := [.reset none] } = .next State.reset :=
  ⟨rfl, rfl, rfl⟩

theorem witness_WaitingUnitChangesNothing : ready300.inbox = [] := rfl

theorem witness_StepRunsDecodedCommand :
    (asked ready300 0x2200#16 300#64).inbox = .request { cmd := 0x2200#16, arg := 300#64 } :: [] ∧
    decode { cmd := 0x2200#16, arg := 300#64 } = .instr (.rank1 300#64) := ⟨rfl, rfl⟩

/-- Every operand form at the end of its legal range. -/
theorem witness_EncodeThenDecodeGivesTheCommand :
    (Instr.stageWord 3#3 ones).wellFormed = true ∧ (Instr.readEnc 4#3).wellFormed = true ∧
    (Instr.readBlock 4#3 ones).wellFormed = true ∧ (Instr.encode 7#3).wellFormed = true ∧
    Instr.nop.wellFormed = true := by decide

theorem witness_DecodedCommandEncodesToTheWord :
    decode { cmd := 0x2304#16, arg := ones } = .instr (.readBlock 4#3 ones) ∧
    ignoresArg (.readBlock 4#3 ones) = false ∧ decode { cmd := 0x1404#16, arg := ones } = .instr (.readEnc 4#3) ∧
    ignoresArg (.readEnc 4#3) = true := by decide

/-- The ends of the reserved OPC ranges, the least and greatest Z, the first F outside each legal set; and words just
inside. -/
theorem witness_IllegalWordsRaiseIllegalCommand :
    (ReservedOpc 0x04 ∧ ReservedOpc 0x0F ∧ ReservedOpc 0x15 ∧ ReservedOpc 0x1F ∧ ReservedOpc 0x24 ∧ ReservedOpc 0x2F ∧
      ReservedOpc 0x31 ∧ ReservedOpc 0xFF) ∧
    (CmdWord.z 0x0008#16 ≠ 0#5 ∧ CmdWord.z 0x00F8#16 ≠ 0#5) ∧
    (FieldOutside 0x11 4 ∧ FieldOutside 0x14 5 ∧ FieldOutside 0x23 5 ∧ FieldOutside 0x30 1) ∧
    (¬FieldOutside 0x11 3 ∧ ¬FieldOutside 0x14 4 ∧ ¬FieldOutside 0x13 7 ∧ ¬ReservedOpc 0x03 ∧ ¬ReservedOpc 0x30) ∧
    (asked ready300 0x1104#16).inbox = .request { cmd := 0x1104#16, arg := 0#64 } :: [] ∧
    ready300.vstate ≠ .faulted := by
  unfold ReservedOpc FieldOutside
  exact ⟨by decide, by decide, by decide, by decide, rfl, by decide⟩

theorem witness_UnusedArgumentIsIgnored :
    decode { cmd := 0x1304#16, arg := 5#64 } = .instr (.encode 4#3) ∧ ignoresArg (.encode 4#3) = true := by decide

/-- A length met and missed by the word count, at 0, 1, 64 and 65 bits. -/
theorem witness_PseudoInstructionsExpand :
    ([] : List Word).length = ((0#64 : Word).toNat + 63) / 64 ∧ [ones].length = ((1#64 : Word).toNat + 63) / 64 ∧
    [ones].length = ((64#64 : Word).toNat + 63) / 64 ∧ [ones].length ≠ ((65#64 : Word).toNat + 63) / 64 := by decide

/-- A line that assembles; a line written out; numbers at both ends of their ranges and one beyond. -/
theorem witness_AssembledWordsUseTheOpcodeMap :
    assembleLine "READ_BLOCK 4, 0" = some [{ cmd := 0x2304#16, arg := 0#64 }] ∧
    lineText "STAGE_WORD" [['2'], ['7']] [' ', 'S'] = "STAGE_WORD 2, 7# S" ∧
    (PlainWord "STAGE_WORD".toList ∧ PlainWord ['2'] ∧ PlainWord ['7']) ∧
    (7 = digitsValue 10 [7] ∧ 8 = digitsValue 10 [8] ∧ 300 = digitsValue 10 [3, 0, 0]) ∧
    (255 = digitsValue 16 [15, 15] ∧ 2 ^ 64 = digitsValue 16 (1 :: List.replicate 16 0)) :=
  ⟨by decide, by decide, by simp [PlainWord], by decide, by decide, rfl⟩

/-- A line of each operand shape, and a line of each pseudo-instruction that takes operands. -/
theorem witness_LinesOfTheAssembler :
    LineHolds "STATUS # poll" "STATUS" [] ∧
    (LineHolds "RANK1 300" "RANK1" [['3', '0', '0']] ∧ argOperand ['3', '0', '0'] = some 300#64) ∧
    (LineHolds "ENCODE 7" "ENCODE" [['7']] ∧ fieldOperand ['7'] = some 7#3) ∧
    (LineHolds "READ_BLOCK 4 , 0" "READ_BLOCK" [['4'], ['0']] ∧ fieldOperand ['4'] = some 4#3 ∧
      argOperand ['0'] = some 0#64) ∧
    (LineHolds "LOAD 64, 1" "LOAD" [['6', '4'], ['1']] ∧
      [['6', '4'], ['1']].map argOperand = some 64#64 :: [1#64].map some ∧ [1#64].length = (64 + 63) / 64) ∧
    (LineHolds "LOAD 65, 1" "LOAD" [['6', '5'], ['1']] ∧ [1#64].length ≠ (65 + 63) / 64) ∧
    (LineHolds "MAKE_BLOCK 1, 0, 5, 0, 0, 0" "MAKE_BLOCK" [['1'], ['0'], ['5'], ['0'], ['0'], ['0']] ∧
      [['0'], ['5'], ['0'], ['0'], ['0']].map argOperand = [0#64, 5#64, 0#64, 0#64, 0#64].map some) := by
  unfold LineHolds
  decide

/-- Lines with the words that the opcode map and the expansions give them (30_encoding.md R58, R65, R66). -/
theorem test_assemble_lines :
    ["CLEAR", "ENCODE 4", "LOAD 65, 0xFf, -1", "MAKE_BLOCK 1, 2, 3, 0, 0, 0"].map assembleLine =
      [some [{ cmd := 0x0100#16, arg := 0#64 }], some [{ cmd := 0x1304#16, arg := 0#64 }],
       some [{ cmd := 0x0200#16, arg := 65#64 }, { cmd := 0x0300#16, arg := 0xFF#64 },
             { cmd := 0x0300#16, arg := ones }],
       some [{ cmd := 0x1100#16, arg := 3#64 }, { cmd := 0x1101#16, arg := 0#64 }, { cmd := 0x1102#16, arg := 0#64 },
             { cmd := 0x1103#16, arg := 0#64 }, { cmd := 0x1200#16, arg := 2#64 },
             { cmd := 0x1301#16, arg := 0#64 }]] := by
  decide

theorem witness_SwarLanesHoldPopcounts :
    (6 ≤ 6 ∧ 0 < 64 / 2 ^ 6) ∧ (0 ≤ 6 ∧ 63 < 64 / 2 ^ 0) ∧ (5 < 6 ∧ 0 < 64 / 2 ^ (5 + 1)) ∧
    (0 < 6 ∧ 31 < 64 / 2 ^ (0 + 1)) := by decide

theorem witness_HwAndSwarBuildsAnswerAlike :
    step ((asked ready300 0x2200#16 300#64).builtWith .hw) = .next (respond .ok 33#64 ready300) ∧
    step ((asked ready300 0x3000#16).builtWith .hw) = .next (respond .ok 2#64 ready300) ∧
    decode { cmd := 0x2200#16, arg := 300#64 } ≠ .instr .status ∧
    decode { cmd := 0x3000#16, arg := 0#64 } = .instr .status ∧
    step ((asked { ready300 with store := [] } 0x2100#16).builtWith .hw) = .fault .blockNotWritten ∧
    step ((asked ready300 0x2200#16 300#64).builtWith .swar) = .next (respond .ok 33#64 (ready300.builtWith .swar)) :=
  ⟨rfl, rfl, by decide, rfl, rfl, rfl⟩

/-- FAULTED for the FAULTED clauses; a state that is not, with an illegal word of the command's OPC, for the others. -/
theorem witness_command_premises :
    faulted.vstate = .faulted ∧ begun300.vstate ≠ .faulted ∧ State.reset.vstate ≠ .faulted ∧
    ready300.vstate ≠ .faulted ∧ CmdWord.opc 0x1008#16 = 0x10#8 ∧ CmdWord.z 0x1008#16 ≠ 0#5 ∧
    CmdWord.opc 0x1104#16 = 0x11#8 ∧ decide ((CmdWord.f 0x1104#16).toNat ≤ 3) = false ∧
    CmdWord.opc 0x1405#16 = 0x14#8 ∧ decide ((CmdWord.f 0x1405#16).toNat ≤ 4) = false ∧
    CmdWord.opc 0x3001#16 = 0x30#8 ∧ (CmdWord.f 0x3001#16 == 0#3) = false ∧
    (asked ready300 0x3001#16).inbox = .request { cmd := 0x3001#16, arg := 0#64 } :: [] := by decide

theorem witness_BlockPositionsAreMsbFirst :
    (0 < 256 ∧ (0 : Fin 4).val = 0 / 64) ∧ (255 < 256 ∧ (3 : Fin 4).val = 255 / 64) ∧
    (64 < 256 ∧ (1 : Fin 4).val = 64 / 64) := by decide

/-- Also of MakeBlockCountsAreBounded. -/
theorem witness_MakeBlockFields : (1 ≤ 1 ∧ 1 ≤ 4) ∧ (1 ≤ 4 ∧ 4 ≤ 4) := by decide

/-- Also of StageOffsetWritesSoff. -/
theorem witness_LargeCountIsTheOffset :
    State.reset.vstate ≠ .faulted ∧ 2 ^ 40 ≤ (0x10000000000#64 : Word).toNat ∧
    (0xFFFFFFFFFF#64 : Word).toNat < 2 ^ 40 := by decide

theorem witness_StageWordWritesItsSlot :
    State.reset.vstate ≠ .faulted ∧ (0#3 : FField).toNat = (0 : Fin 4).val ∧
    (3#3 : FField).toNat = (3 : Fin 4).val := by decide

theorem witness_EncodeRunsTheBlockEncoder :
    State.reset.vstate ≠ .faulted ∧ (0#3 : FField).toNat = 0 ∧ 4 < (5#3 : FField).toNat ∧
    (1 ≤ (1#3 : FField).toNat ∧ (1#3 : FField).toNat ≤ 4) ∧ (1 ≤ (4#3 : FField).toNat ∧ (4#3 : FField).toNat ≤ 4) := by
  decide

theorem witness_ReadEncReturnsAChunk :
    State.reset.vstate ≠ .faulted ∧ (0#3 : FField).toNat ≤ 4 ∧ (4#3 : FField).toNat ≤ 4 := by decide

theorem witness_ClearEmptiesTheVector :
    two300.vstate ≠ .faulted ∧ State.reset.Inv ∧ State.reset.vstate = .empty :=
  ⟨by decide, inv_empty _ (.inl rfl), rfl⟩

/-- Each clause, at 256·MAX_BLOCKS, one above it, and 0. -/
theorem witness_LoadBeginStartsALoad :
    begun300.vstate = .loading ∧ ready300.vstate = .ready ∧ State.reset.vstate = .empty ∧ State.reset.cfg.Legal ∧
    256 * State.reset.cfg.maxBlocks < (1025#64 : Word).toNat ∧
    (1024#64 : Word).toNat ≤ 256 * State.reset.cfg.maxBlocks ∧
    (0#64 : Word).toNat ≤ 256 * State.reset.cfg.maxBlocks := by decide

/-- Outside LOADING; and in LOADING: room left (GCNT 0 and 2), a full group, the last word in a group of one and of
four. -/
theorem witness_LoadWordConsumesAWord :
    (State.reset.vstate = .empty ∧ ready300.vstate = .ready) ∧
    (begun300.Inv ∧ begun300.vstate = .loading ∧ begun300.gcnt.toNat = (0 : Fin 4).val ∧
      (1#35).toNat = begun300.wDone.toNat + 1 ∧ (0 : Fin 4).val + 1 < 4 ∧ 1#35 ≠ begun300.wTotal) ∧
    (two300.Inv ∧ two300.vstate = .loading ∧ two300.gcnt.toNat = (2 : Fin 4).val ∧
      (3#35).toNat = two300.wDone.toNat + 1 ∧ (2 : Fin 4).val + 1 < 4 ∧ 3#35 ≠ two300.wTotal) ∧
    (three300.Inv ∧ three300.vstate = .loading ∧ three300.gcnt.toNat = (3 : Fin 4).val ∧
      (4#35).toNat = three300.wDone.toNat + 1 ∧ (3 : Fin 4).val + 1 = 4) ∧
    (last300.Inv ∧ last300.vstate = .loading ∧ last300.gcnt.toNat = (0 : Fin 4).val ∧
      (5#35).toNat = last300.wDone.toNat + 1 ∧ 5#35 = last300.wTotal) ∧
    (three256.Inv ∧ three256.vstate = .loading ∧ three256.gcnt.toNat = (3 : Fin 4).val ∧
      (4#35).toNat = three256.wDone.toNat + 1 ∧ 4#35 = three256.wTotal) :=
  ⟨by decide, ⟨inv_loading _ (by simp), by decide⟩, ⟨inv_loading _ (by simp), by decide⟩,
    ⟨inv_loading _ (by simp), by decide⟩, ⟨inv_last300, by decide⟩, ⟨inv_loading _ (by simp), by decide⟩⟩

theorem witness_OnlyLoadWordWritesTheBlockStore :
    exec (.loadWord 0x8000000000000000#64) last300 = .next (respond .ok 0#64 ready300) ∧
    exec .nop ready300 = .next (respond .ok 0#64 ready300) ∧ (0 : Nat) ≠ last300.bidx.toNat ∧
    (respond .ok 0#64 ready300).bidx = ready300.bidx := ⟨rfl, rfl, by decide, rfl⟩

theorem witness_LoadCommandsFrame :
    exec (.loadBegin 300#64) State.reset = .next (respond .ok 0#64 begun300) ∧
    exec (.loadWord 0x8000000000000000#64) last300 = .next (respond .ok 0#64 ready300) ∧
    (Instr.loadWord 0#64 ≠ .clear ∧ ∀ n, Instr.loadWord 0#64 ≠ .loadBegin n) :=
  ⟨rfl, rfl, by simp⟩

/-- Also of LoadedVectorAnswersQueries: loads of 1, 256 and 1024 bits, with positions at both ends. -/
theorem witness_CompletedLoadHoldsTheEncodedGroups :
    State.reset.Inv ∧ State.reset.vstate = .empty ∧
    (0 < (1#64 : Word).toNat ∧ (1#64 : Word).toNat ≤ 256 * State.reset.cfg.maxBlocks ∧
      [ones].length = ((1#64 : Word).toNat + 63) / 64) ∧
    (0 < (256#64 : Word).toNat ∧ (256#64 : Word).toNat ≤ 256 * State.reset.cfg.maxBlocks ∧
      (List.replicate 4 ones).length = ((256#64 : Word).toNat + 63) / 64) ∧
    (0 < (1024#64 : Word).toNat ∧ (1024#64 : Word).toNat ≤ 256 * State.reset.cfg.maxBlocks ∧
      (List.replicate 16 ones).length = ((1024#64 : Word).toNat + 63) / 64) :=
  ⟨inv_empty _ (.inl rfl), by decide⟩

theorem witness_IndexSplitsIntoSlices :
    (0#64 : Word).toNat ≤ 2 ^ 40 ∧ (0x10000000000#64 : Word).toNat ≤ 2 ^ 40 := by decide

theorem witness_LeadMaskKeepsLeadingPositions : (0 ≤ 63 ∧ 63 ≤ 63) ∧ 0 < 64 ∧ 63 < 64 := by decide

theorem witness_LengthAnswersLen :
    begun300.vstate = .loading ∧ State.reset.vstate = .empty ∧ ready300.vstate = .ready := by decide

/-- LOADING; a negative index; the index LEN; the last position, whose record is stored. -/
theorem witness_AccessAnswersTheBit :
    begun300.vstate = .loading ∧ ready300.vstate = .ready ∧ ones.toInt < 0 ∧
    (ready300.len.toNat : Int) ≤ (300#64 : Word).toInt ∧
    ((299#64 : Word).toInt = ((299 : Nat) : Int) ∧ 299 < ready300.len.toNat ∧
      299 / 256 < ready300.cfg.maxBlocks ∧ ready300.store.read (299 / 256) = some recB ∧
      (0 : Fin 4).val = 299 % 256 / 64) ∧
    ((255#64 : Word).toInt = ((255 : Nat) : Int) ∧ 255 < ready300.len.toNat ∧
      255 / 256 < ready300.cfg.maxBlocks ∧ ready300.store.read (255 / 256) = some recA ∧
      (3 : Fin 4).val = 255 % 256 / 64) := by decide

/-- LOADING; a negative index; the index LEN + 1; the index LEN with q = NB; positions in the first and last word of a
record. -/
theorem witness_Rank1AnswersTheCount :
    begun300.vstate = .loading ∧ ready300.vstate = .ready ∧ ready256.vstate = .ready ∧ ones.toInt < 0 ∧
    (ready300.len.toNat : Int) < (301#64 : Word).toInt ∧
    ((256#64 : Word).toInt = ((256 : Nat) : Int) ∧ 256 ≤ ready256.len.toNat ∧ 256 / 256 = ready256.nb.toNat) ∧
    ((300#64 : Word).toInt = ((300 : Nat) : Int) ∧ 300 ≤ ready300.len.toNat ∧ 300 / 256 ≠ ready300.nb.toNat ∧
      300 / 256 < ready300.cfg.maxBlocks ∧ ready300.store.read (300 / 256) = some recB ∧
      (0 : Fin 4).val = 300 % 256 / 64) ∧
    ((255#64 : Word).toInt = ((255 : Nat) : Int) ∧ 255 ≤ ready300.len.toNat ∧ 255 / 256 ≠ ready300.nb.toNat ∧
      255 / 256 < ready300.cfg.maxBlocks ∧ ready300.store.read (255 / 256) = some recA ∧
      (3 : Fin 4).val = 255 % 256 / 64) := by decide

theorem witness_ReadBlockReturnsAChunk :
    begun300.vstate = .loading ∧ ready300.vstate = .ready ∧ (4#3 : FField).toNat ≤ 4 ∧
    ready300.nb.toNat ≤ (2#64 : Word).toNat ∧ (1#64 : Word).toNat < ready300.nb.toNat ∧
    (1#64 : Word).toNat < ready300.cfg.maxBlocks ∧ ready300.store.read (1#64 : Word).toNat = some recB := by decide

/-- Also of RankGrowsByAtMostOne: both ends of a READY vector. -/
theorem witness_QueriesAnswerTheStoredVector :
    ready300.Inv ∧ ready300.vstate = .ready ∧ 0 < ready300.len.toNat ∧ 299 < ready300.len.toNat ∧
    300 ≤ ready300.len.toNat ∧ ones.toInt < 0 := ⟨inv_ready300, by decide⟩

/-- Two READY vectors of 44 + 256 bits that differ in a trailing bit of the last word. -/
def trailing300 : State :=
  { ready300 with
    running := 34#41
    store := [(0, recA), (1, { recB with small0 := 2#8, small1 := 2#8, small2 := 2#8,
                                         payload := quad 0x8000000000000001#64 0#64 0#64 0#64 })] }

theorem inv_trailing300 : trailing300.Inv where
  config_legal := by decide
  store_wf := by decide
  store_bound := by decide
  len_le := by decide
  nb_eq := by decide
  wTotal_eq := by decide
  gcnt_le := by decide
  bidx_le := by decide
  records_good := by
    intro q hq
    obtain rfl | rfl : q = 0 ∨ q = 1 := by
      have : trailing300.bidx.toNat = 2 := rfl
      omega
    · exact ⟨recA, rfl, recA_good⟩
    · exact ⟨_, rfl, ⟨by decide, by decide, by decide, by decide, by decide⟩⟩
  running_eq := by decide
  phase := And.intro rfl (And.intro rfl rfl)
  fault_record := And.intro rfl rfl

theorem witness_TrailingBitsChangeNoQuery :
    ready300.Inv ∧ trailing300.Inv ∧ ready300.vstate = .ready ∧ trailing300.vstate = .ready ∧
    ready300.len = trailing300.len ∧
    (∀ p < ready300.len.toNat, ready300.store.bit p = trailing300.store.bit p) ∧ ready300 ≠ trailing300 := by
  refine ⟨inv_ready300, inv_trailing300, rfl, rfl, rfl, fun p hp => ?_, by decide⟩
  have hlen : ready300.len.toNat = 300 := rfl
  obtain h | ⟨k, hk, rfl⟩ : p < 256 ∨ ∃ k < 44, p = 256 + k := by
    by_cases h : p < 256
    · exact .inl h
    · exact .inr ⟨p - 256, by omega, by omega⟩
  · simp only [BlockStore.bit, blockIndex, Nat.div_eq_of_lt h]
    rfl
  · have : ∀ k < 44, ready300.store.bit (256 + k) = trailing300.store.bit (256 + k) := by decide
    exact this k hk

theorem witness_FaultedUnitServesOnlyStatus :
    faulted.vstate = .faulted ∧ (asked faulted 0x3000#16).inbox = .request { cmd := 0x3000#16, arg := 0#64 } :: [] ∧
    decode { cmd := 0x3000#16, arg := 0#64 } = .instr .status ∧
    decode { cmd := 0x3001#16, arg := 0#64 } ≠ .instr .status ∧
    decode { cmd := 0x0100#16, arg := 0#64 } ≠ .instr .status := by decide

/-- Each recoverable error, answered. -/
theorem witness_RecoverableErrorsChangeNothing :
    exec (.loadBegin 1025#64) State.reset = .next (respond .errAlloc 0#64 State.reset) ∧
    exec (.stageOffset 0x10000000000#64) State.reset = .next (respond .errRange 0#64 State.reset) ∧
    exec (.access 300#64) ready300 = .next (respond .errRange 0#64 ready300) ∧
    exec (.rank1 301#64) ready300 = .next (respond .errRange 0#64 ready300) ∧
    exec (.readBlock 0#3 2#64) ready300 = .next (respond .errRange 0#64 ready300) ∧
    exec (.loadWord 5#64) State.reset = .next (respond .errState 0#64 State.reset) ∧
    exec .length begun300 = .next (respond .errState 0#64 begun300) ∧
    (respond .errAlloc 0#64 State.reset).response = some { rsp := .errAlloc, result := 0#64 } :=
  ⟨rfl, rfl, rfl, rfl, rfl, rfl, rfl, rfl⟩

/-- In LOADING, and in FAULTED with STATUS (answered OK) and with CLEAR (answered FAULT). -/
theorem witness_EveryRequestIsAnswered :
    ((asked last300 0x0300#16 5#64).Inv ∧
      (asked last300 0x0300#16 5#64).inbox = .request { cmd := 0x0300#16, arg := 5#64 } :: []) ∧
    ((asked faulted 0x3000#16).Inv ∧ (asked faulted 0x3000#16).vstate = .faulted ∧
      (asked faulted 0x3000#16).inbox = .request { cmd := 0x3000#16, arg := 0#64 } :: [] ∧
      decode { cmd := 0x3000#16, arg := 0#64 } = .instr .status ∧
      answer (step (asked faulted 0x3000#16)) = ok 0x02000023#64) ∧
    ((asked faulted 0x0100#16).Inv ∧ (asked faulted 0x0100#16).vstate = .faulted ∧
      (asked faulted 0x0100#16).inbox = .request { cmd := 0x0100#16, arg := 0#64 } :: [] ∧
      answer (step (asked faulted 0x0100#16)) = zeroWith .fault) :=
  ⟨⟨inv_inbox inv_last300 _, rfl⟩, ⟨inv_inbox inv_faulted _, rfl, rfl, rfl, by decide⟩,
    inv_inbox inv_faulted _, rfl, rfl, by decide⟩

/-- A run that enters FAULTED; a run that meets the invariant and has no FAULT response; a run begun in FAULTED. -/
theorem witness_SequencesEndingInFaultedNeverSucceed :
    (Host.Core.run Sys2Proof.core 1 (asked State.reset 0x1300#16) =
        .next (raiseFault .encodeCount 0x1300#16 State.reset) ∧
      (raiseFault .encodeCount 0x1300#16 State.reset).vstate = .faulted) ∧
    ((asked State.reset 0x0000#16).Inv ∧ (asked State.reset 0x0000#16).vstate ≠ .faulted ∧
      Machine.succeeds 1 (asked State.reset 0x0000#16) = true) ∧
    ((asked faulted 0x3000#16).vstate = .faulted ∧ ∀ c, .reset c ∉ (asked faulted 0x3000#16).inbox) :=
  ⟨⟨rfl, rfl⟩, ⟨inv_inbox (inv_empty _ (.inl rfl)) _, by decide, by decide⟩, rfl,
    by simp [asked, placeRequest, faulted, begun300, State.reset, State.resetOf]⟩

/-- R104: a sequence begun in FAULTED that sends only STATUS has no FAULT response and is no success
(notes/assumptions/17.md); one in which reset comes first is. -/
theorem test_succeeds_faulted :
    (responses 1 (asked faulted 0x3000#16)).all (fun r => r.rsp != .fault) = true ∧
    Machine.succeeds 1 (asked faulted 0x3000#16) = false ∧
    Machine.succeeds 2 { faulted with inbox := [.reset none, .request { cmd := 0x3000#16, arg := 0#64 }] } = true := by
  decide

theorem witness_ReadsChangeNothingAndWritersRepeat :
    readsOnly (.rank1 300#64) = true ∧ (Instr.rank1 300#64).wellFormed = true ∧
    exec (.rank1 300#64) ready300 = .next (respond .ok 33#64 ready300) ∧
    exec (.stageWord 3#3 0xF#64) State.reset =
      .next (respond .ok 0#64 { State.reset with stage := quad 0#64 0#64 0#64 0xF#64 }) :=
  ⟨rfl, rfl, rfl, rfl⟩

theorem witness_QueriesInterleaveFreely :
    readsOnly (.readBlock 4#3 1#64) = true ∧ (Instr.readBlock 4#3 1#64).wellFormed = true ∧
    exec (.readBlock 4#3 1#64) ready300 = .next (respond .ok 0#64 ready300) := ⟨rfl, rfl, rfl⟩

/-- A step of each kind that changes VSTATE. -/
theorem witness_LifecycleTransitions :
    step (asked State.reset 0x0200#16 300#64) = .next (respond .ok 0#64 begun300) ∧
    step (asked State.reset 0x0200#16 0#64) = .next (respond .ok 0#64 ready0) ∧
    step (asked last300 0x0300#16 0x8000000000000000#64) = .next (respond .ok 0#64 ready300) ∧
    (nextOf (step (asked two300 0x0100#16))).map State.vstate = some .empty ∧
    (nextOf (step (asked two300 0xFFFF#16))).map State.vstate = some .faulted ∧
    step { faulted with inbox := [.reset none] } = .next State.reset ∧
    begun300.vstate ≠ State.reset.vstate ∧ ready300.vstate ≠ last300.vstate :=
  ⟨rfl, rfl, rfl, rfl, rfl, rfl, by decide, by decide⟩

theorem witness_FaultRecordWrittenOnlyOnEntry :
    step (asked State.reset 0x1300#16) = .next (raiseFault .encodeCount 0x1300#16 State.reset) ∧
    (raiseFault .encodeCount 0x1300#16 State.reset).faultCode ≠ State.reset.faultCode ∧
    step { faulted with inbox := [.reset none] } = .next State.reset ∧
    State.reset.faultCmd ≠ faulted.faultCmd := ⟨rfl, by decide, rfl, by decide⟩

theorem witness_ReadyVectorIsImmutable :
    ready300.vstate = .ready ∧ Instr.loadBegin 0#64 ≠ .clear ∧
    exec (.loadBegin 0#64) ready300 = .next (raiseFault .loadNotEmpty 0x0200#16 ready300) ∧
    exec (.access 299#64) ready300 = .next (respond .ok 0#64 ready300) := ⟨rfl, by decide, rfl, rfl⟩

theorem witness_StagingWrittenOnlyByStagingCommands :
    (nextOf (exec (.stageWord 0#3 5#64) State.reset)).map State.stage ≠ some State.reset.stage ∧
    (nextOf (exec (.stageOffset 5#64) State.reset)).map State.soff ≠ some State.reset.soff ∧
    (nextOf (exec (.encode 4#3) staged)).map State.encOut ≠ some staged.encOut := by decide

/-- The smallest and the largest legal MAX_BLOCKS. -/
theorem witness_InvariantHoldsAfterReset :
    ({ maxBlocks := 1, impl := .hw } : Config).Legal ∧ ({ maxBlocks := 2 ^ 32, impl := .swar } : Config).Legal := by
  decide

theorem witness_EveryStepKeepsTheInvariant :
    (asked last300 0x0300#16 0x8000000000000000#64).Inv ∧
    step (asked last300 0x0300#16 0x8000000000000000#64) = .next (respond .ok 0#64 ready300) :=
  ⟨inv_inbox inv_last300 _, rfl⟩

theorem witness_EveryStepKeepsTheStoreCanonical :
    last300.store.Wf ∧ step (asked last300 0x0300#16 0x8000000000000000#64) = .next (respond .ok 0#64 ready300) :=
  ⟨by decide, rfl⟩

theorem witness_LargeCountsDoNotDecrease :
    ready300.Inv ∧ ready300.vstate = .ready ∧ 0 ≤ 1 ∧ 1 < ready300.nb.toNat := ⟨inv_ready300, by decide⟩

/-- At GCNT = 0 and at GCNT = 3, with another word in a stale entry. -/
theorem witness_StaleGroupWordsAreUnobservable :
    (ready300.gcnt.toNat ≤ 3 ∧ (∀ m : Fin 4, m.val < ready300.gcnt.toNat → Quad.zero.get m = ready300.gbuf.get m) ∧
      Quad.zero ≠ ready300.gbuf) ∧
    (three300.gcnt.toNat ≤ 3 ∧
      (∀ m : Fin 4, m.val < three300.gcnt.toNat →
        (quad 0xFF#64 0xFF#64 0xFF#64 ones).get m = three300.gbuf.get m) ∧
      quad 0xFF#64 0xFF#64 0xFF#64 ones ≠ three300.gbuf) ∧
    step ready300 = .next ready300 := ⟨by decide, by decide, rfl⟩

/-- A store that differs at BIDX, in LOADING and in READY. -/
theorem witness_UnwrittenRecordsAreUnobservable :
    (last300.Inv ∧ ∀ q < last300.bidx.toNat,
      BlockStore.read [(0, recA), (1, BlockRecord.zero)] q = last300.store.read q) ∧
    (ready256.Inv ∧ ∀ q < ready256.bidx.toNat,
      BlockStore.read [(0, recA), (1, BlockRecord.zero)] q = ready256.store.read q) ∧
    step last300 = .next last300 ∧ [(0, recA), (1, BlockRecord.zero)] ≠ last300.store :=
  ⟨⟨inv_last300, by decide⟩, ⟨inv_ready256, by decide⟩, rfl, by decide⟩

end Sys2Proof.Tests
end

section
/-! SUPPORT. Proofs of the statements about reset values (10_state.md R38) and about STATUS (10_state.md R32), with the
laws they share: what the registers hold after reset, how an illegal word is served, the fields of the STATUS word. -/

namespace Sys2Proof.Machine

/-! ### Values after reset -/

@[simp] theorem Quad.get_zero (m : Fin 4) : Quad.zero.get m = 0#64 := by
  fin_cases m <;> rfl

@[simp] theorem BlockRecord.toBits_zero : BlockRecord.zero.toBits = 0#320 := by
  simp [BlockRecord.toBits, BlockRecord.zero, Quad.zero]

/-- 10_state.md R38, for every build. -/
theorem resetOf_atReset (c : Config) : (State.resetOf c).AtReset where
  vstate := rfl
  len := rfl
  nb := rfl
  wTotal := rfl
  wDone := rfl
  gcnt := rfl
  bidx := rfl
  running := rfl
  stage := Quad.get_zero
  soff := rfl
  encOut := BlockRecord.toBits_zero
  faultCode := rfl
  faultCmd := rfl
  faultOut := rfl

theorem vectors_legal : Config.vectors.Legal := by decide

/-- Settles O1: the reset state of every build has the values of R38, and `State.reset` is that of the build of the
test vectors. -/
theorem resetStateValues : Obligations.ResetStateValues :=
  ⟨resetOf_atReset, Config.vectors, vectors_legal, rfl⟩

/-! ### Illegal words -/

theorem whenLegal_of_not {legal : Bool} (i : Instr) (h : legal = false) :
    whenLegal legal i = .illegal .functionField := by
  simp [whenLegal, h]

theorem decode_of_z_ne_zero {r : Request} (hz : r.cmd.z ≠ 0#5) : decode r = .illegal .reservedBits := by
  simp [decode, hz]

/-- Outside FAULTED, a request that does not decode raises ILLEGAL_COMMAND (60_exceptions.md R101, R102). -/
theorem step_of_illegal {s : State} {r : Request} {rest : List HostInput} {why : Illegal}
    (hin : s.inbox = .request r :: rest) (hv : s.vstate ≠ .faulted) (hd : decode r = .illegal why) :
    step s = .next ((s.taking rest).faulting .illegalCommand r.cmd) := by
  simp only [step, arrival, hin, hd, serveIllegal, if_neg hv]
  rfl

/-- For the other words of an OPC it is enough to look at those with Z = 0: R62 (b) holds of every OPC alike. -/
theorem otherWordsIllegal_of_decode {opc : BitVec 8} {legalF : FField → Bool}
    (h : ∀ r : Request, r.cmd.z = 0#5 → r.cmd.opc = opc → legalF r.cmd.f = false → ∃ why, decode r = .illegal why) :
    OtherWordsIllegal opc legalF := by
  intro s r rest hin hv ho hbad
  by_cases hz : r.cmd.z = 0#5
  · obtain ⟨why, hd⟩ := h r hz ho (hbad.resolve_left (not_not_intro hz))
    exact step_of_illegal hin hv hd
  · exact step_of_illegal hin hv (decode_of_z_ne_zero hz)

/-! ### STATUS -/

theorem decode_of_opc_status {r : Request} (hz : r.cmd.z = 0#5) (ho : r.cmd.opc = 0x30#8) :
    decode r = whenLegal (r.cmd.f == 0#3) .status := by
  simp [decode, hz, ho]

theorem status_otherWordsIllegal : OtherWordsIllegal 0x30#8 (· == 0#3) :=
  otherWordsIllegal_of_decode fun _ hz ho hf =>
    ⟨.functionField, (decode_of_opc_status hz ho).trans (whenLegal_of_not .status hf)⟩

theorem exec_status (s : State) : exec .status s = .next (s.answering .ok (statusWord s)) := rfl

theorem popcntImpl_bit_eq_ite (p : PopcntImpl) : p.bit = if p = .hw then 0#1 else 1#1 := by
  cases p <;> rfl

/-- The fields of the STATUS word (10_state.md R32), lowest first: each is found by dropping the fields below it. -/
theorem statusWord_fields (s : State) :
    (statusWord s).extractLsb' 0 2 = s.vstate.bits ∧ (statusWord s).extractLsb' 2 2 = 0#2 ∧
    (statusWord s).extractLsb' 4 4 = s.faultCode.bits ∧ (statusWord s).extractLsb' 8 1 = s.cfg.impl.bit ∧
    (statusWord s).extractLsb' 9 3 = s.gcnt ∧ (statusWord s).extractLsb' 12 4 = 0#4 ∧
    (statusWord s).extractLsb' 16 16 = s.faultCmd ∧ (statusWord s).extractLsb' 32 32 = 0#32 := by
  unfold statusWord
  refine ⟨?_, ?_, ?_, ?_, ?_, ?_, ?_, ?top⟩
  case top =>
    repeat rw [BitVec.extractLsb'_append_eq_of_le (by decide)]
    exact BitVec.extractLsb'_eq_self
  all_goals
    repeat rw [BitVec.extractLsb'_append_eq_of_le (by decide)]
    exact BitVec.extractLsb'_append_eq_right

/-- Settles O43: STATUS answers the STATUS word in every state, and its fields stand at the bits of R32. -/
theorem statusShowsTheFields : Obligations.StatusShowsTheFields := by
  refine ⟨rfl, status_otherWordsIllegal, ⟨rfl, rfl, rfl, rfl⟩, fun s => ⟨statusWord s, exec_status s, ?_⟩⟩
  rw [← popcntImpl_bit_eq_ite]
  exact statusWord_fields s

end Sys2Proof.Machine
end

section
/-! SUPPORT. Proofs of the statements about which command words are illegal (30_encoding.md R62) and about the ARG of a
command that ignores it (30_encoding.md R61), with the laws they share: how the decoder answers a word of each kind. -/

namespace Sys2Proof.Machine

/-! ### Which words decode -/

@[simp] theorem whenLegal_eq_instr_iff {legal : Bool} {i j : Instr} :
    whenLegal legal i = .instr j ↔ legal = true ∧ i = j := by
  cases legal <;> simp [whenLegal]

/-- The OPC values of the 14 commands are those left by R62 (a) (30_encoding.md R58). -/
theorem opc_mem_of_not_reservedOpc {o : BitVec 8} (h : ¬ReservedOpc o.toNat) :
    o ∈ [0x00#8, 0x01#8, 0x02#8, 0x03#8, 0x10#8, 0x11#8, 0x12#8, 0x13#8, 0x14#8, 0x20#8, 0x21#8, 0x22#8, 0x23#8,
      0x30#8] := by
  simp only [List.mem_cons, List.not_mem_nil, or_false]
  unfold ReservedOpc at h
  bv_omega

theorem decode_of_z_eq_zero_of_reservedOpc {r : Request} (hz : r.cmd.z = 0#5) (ho : ReservedOpc r.cmd.opc.toNat) :
    decode r = .illegal .reservedOpcode := by
  unfold ReservedOpc at ho
  simp only [decode, hz, ne_eq, not_true_eq_false, if_false]
  split
  case h_15 => rfl
  all_goals
    next hopc => simp [hopc] at ho

/-- With Z = 0 and an OPC that is not reserved, the decoder asks only for a legal F: one command per OPC, well formed
where its F is legal (30_encoding.md R60, R63). -/
theorem decode_eq_whenLegal {r : Request} (hz : r.cmd.z = 0#5) (ho : ¬ReservedOpc r.cmd.opc.toNat) :
    ∃ legal i, decode r = whenLegal legal i ∧ (legal = true ↔ ¬FieldOutside r.cmd.opc.toNat r.cmd.f.toNat) ∧
      (legal = true → i.wellFormed = true) := by
  simp only [decode, hz, ne_eq, not_true_eq_false, if_false]
  split
  case h_8 hopc => exact ⟨true, _, rfl, by simp [FieldOutside, hopc], fun _ => rfl⟩
  case h_15 =>
    have hcmd := opc_mem_of_not_reservedOpc ho
    simp_all
  all_goals
    next hopc =>
      exact ⟨_, _, rfl, by simp [FieldOutside, hopc, BitVec.toNat_eq], by simp [Instr.wellFormed]⟩

theorem exists_decode_eq_illegal {r : Request}
    (h : ReservedOpc r.cmd.opc.toNat ∨ r.cmd.z ≠ 0#5 ∨ FieldOutside r.cmd.opc.toNat r.cmd.f.toNat) :
    ∃ why, decode r = .illegal why := by
  by_cases hz : r.cmd.z = 0#5
  · by_cases ho : ReservedOpc r.cmd.opc.toNat
    · exact ⟨_, decode_of_z_eq_zero_of_reservedOpc hz ho⟩
    · obtain ⟨legal, i, hd, hlegal, -⟩ := decode_eq_whenLegal hz ho
      have hf : FieldOutside r.cmd.opc.toNat r.cmd.f.toNat := (h.resolve_left ho).resolve_left (not_not_intro hz)
      have hfalse : legal = false := Bool.eq_false_iff.mpr fun hl => hlegal.mp hl hf
      exact ⟨_, hd.trans (whenLegal_of_not i hfalse)⟩
  · exact ⟨_, decode_of_z_ne_zero hz⟩

theorem exists_decode_eq_instr {r : Request}
    (h : ¬(ReservedOpc r.cmd.opc.toNat ∨ r.cmd.z ≠ 0#5 ∨ FieldOutside r.cmd.opc.toNat r.cmd.f.toNat)) :
    ∃ i, decode r = .instr i ∧ i.wellFormed = true := by
  push Not at h
  obtain ⟨ho, hz, hf⟩ := h
  obtain ⟨legal, i, hd, hlegal, hwf⟩ := decode_eq_whenLegal hz ho
  have htrue : legal = true := hlegal.mpr hf
  exact ⟨i, hd.trans (whenLegal_eq_instr_iff.mpr ⟨htrue, rfl⟩), hwf htrue⟩

/-- Settles O7: the words of R62 do not decode, and a request that does not decode raises ILLEGAL_COMMAND; every other
word passes the decoder's checks. -/
theorem illegalWordsRaiseIllegalCommand : Obligations.IllegalWordsRaiseIllegalCommand := by
  refine fun r => ⟨fun h s rest hin hv => ?_, exists_decode_eq_instr⟩
  obtain ⟨why, hd⟩ := exists_decode_eq_illegal h
  exact step_of_illegal hin hv hd

/-! ### An ARG that is ignored -/

/-- A command that ignores ARG is decoded from the command word alone (30_encoding.md R61). -/
theorem decode_of_ignoresArg {c : CmdWord} {a : Word} {i : Instr} (hd : decode { cmd := c, arg := a } = .instr i)
    (hi : ignoresArg i = true) (b : Word) : decode { cmd := c, arg := b } = .instr i := by
  by_cases hz : c.z = 0#5
  · simp only [decode, hz, ne_eq, not_true_eq_false, if_false] at hd ⊢
    split at hd
    case h_3 | h_4 | h_5 | h_6 | h_7 | h_11 | h_12 | h_13 =>
      obtain ⟨-, rfl⟩ := whenLegal_eq_instr_iff.mp hd
      cases hi
    all_goals exact hd
  · rw [decode_of_z_ne_zero hz] at hd
    cases hd

theorem step_of_instr {s : State} {r : Request} {rest : List HostInput} {i : Instr}
    (hin : s.inbox = .request r :: rest) (hd : decode r = .instr i) : step s = exec i (s.taking rest) := by
  simp only [step, arrival, hin, hd]
  rfl

/-- Settles O10: either ARG decodes to the same command, and the step is that command's meaning in the state that has
taken the request. -/
theorem unusedArgumentIsIgnored : Obligations.UnusedArgumentIsIgnored := by
  intro s c a b rest i hd hi
  rw [step_of_instr rfl hd, step_of_instr rfl (decode_of_ignoresArg hd hi b)]
  rfl

end Sys2Proof.Machine
end

section
/-! SUPPORT. Proofs of the statements about the popcount unit (40_popcount.md): the SWAR network keeps in every lane of
x_k the number of set bits of that lane of w (R70), so both circuits compute popcnt (R71) and POPCNT answers it (R72). -/

namespace Sys2Proof.Machine

/-! ### Lanes of a sum -/

/-- Where no carry enters a field of a sum, the field is the sum of the two fields. -/
theorem extractLsb'_add_of_carry_eq_false {w i n : Nat} {x y : BitVec w} (hw : i + n ≤ w)
    (hc : BitVec.carry i x y false = false) :
    (x + y).extractLsb' i n = x.extractLsb' i n + y.extractLsb' i n := by
  have hlt : x.toNat % 2 ^ i + y.toNat % 2 ^ i < 2 ^ i := by simpa [BitVec.carry] using hc
  have hdvd : 2 ^ n ∣ 2 ^ (w - i) := pow_dvd_pow 2 (by omega)
  have hpow : 2 ^ w = 2 ^ i * 2 ^ (w - i) := by rw [← pow_add, Nat.add_sub_cancel' (by omega)]
  apply BitVec.eq_of_toNat_eq
  simp only [BitVec.extractLsb'_toNat, BitVec.toNat_add, Nat.shiftRight_eq_div_pow]
  rw [hpow, Nat.mod_mul_right_div_self, Nat.mod_mod_of_dvd _ hdvd, Nat.add_div_eq_of_add_mod_lt hlt, Nat.add_mod]

/-! ### One stage of the SWAR network (40_popcount.md R69) -/

/-- The bits of M_s at s = 2^k: the low half of every field of width 2^(k+1). -/
theorem getLsbD_swarMask {k : Nat} (hk : k < 6) {i : Nat} (hi : i < 64) :
    (swarMask (2 ^ k)).getLsbD i = decide (i % 2 ^ (k + 1) < 2 ^ k) := by
  have h : ∀ k < 6, ∀ i < 64, (swarMask (2 ^ k)).getLsbD i = decide (i % 2 ^ (k + 1) < 2 ^ k) := by decide
  exact h k hk i hi

section
variable {k l : Nat} (hk : k < 6) (hl : l < 64 / 2 ^ (k + 1))
include hl

theorem lane_end_le : 2 ^ (k + 1) * l + 2 ^ (k + 1) ≤ 64 := by
  rw [← Nat.mul_add_one, mul_comm]
  exact Nat.mul_le_of_le_div _ _ _ hl

include hk

/-- Masking keeps the low half of a lane and clears the high half. -/
theorem extractLsb'_and_swarMask (x : Word) :
    (x &&& swarMask (2 ^ k)).extractLsb' (2 ^ (k + 1) * l) (2 ^ (k + 1)) =
      (x.extractLsb' (2 ^ (k + 1) * l) (2 ^ k)).setWidth (2 ^ (k + 1)) := by
  have hend := lane_end_le hl
  refine BitVec.eq_of_getLsbD_eq fun b hb => ?_
  have hmask : (swarMask (2 ^ k)).getLsbD (2 ^ (k + 1) * l + b) = decide (b < 2 ^ k) := by
    rw [getLsbD_swarMask hk (by omega), Nat.mul_add_mod, Nat.mod_eq_of_lt hb]
  simp [hb, hmask, Bool.and_comm]

/-- No carry enters a lane of a sum of masked words: the top bit of the lane below is clear in both. -/
theorem carry_and_swarMask (x y : Word) :
    BitVec.carry (2 ^ (k + 1) * l) (x &&& swarMask (2 ^ k)) (y &&& swarMask (2 ^ k)) false = false := by
  have hend := lane_end_le hl
  cases l with
  | zero => simp
  | succ l =>
    have hpos : 1 ≤ 2 ^ k := Nat.one_le_two_pow
    have htop : (swarMask (2 ^ k)).getLsbD (2 ^ (k + 1) * l + (2 ^ (k + 1) - 1)) = false := by
      rw [getLsbD_swarMask hk (by lia), Nat.mul_add_mod, Nat.mod_eq_of_lt (by omega), decide_eq_false (by omega)]
    have hsucc : 2 ^ (k + 1) * (l + 1) = 2 ^ (k + 1) * l + (2 ^ (k + 1) - 1) + 1 := by
      rw [mul_add_one]
      omega
    rw [hsucc, BitVec.carry_succ]
    simp [htop, Bool.atLeastTwo]

/-- 40_popcount.md R70: a lane after a stage is the exact sum of the two halves of the lane before it. -/
theorem swarStage_lane (x : Word) :
    ((swarStage (2 ^ k) x).extractLsb' (2 ^ (k + 1) * l) (2 ^ (k + 1))).toNat =
      (x.extractLsb' (2 ^ (k + 1) * l) (2 ^ k)).toNat + (x.extractLsb' (2 ^ (k + 1) * l + 2 ^ k) (2 ^ k)).toNat := by
  have hshift : (x >>> 2 ^ k).extractLsb' (2 ^ (k + 1) * l) (2 ^ k) =
      x.extractLsb' (2 ^ (k + 1) * l + 2 ^ k) (2 ^ k) := by
    refine BitVec.eq_of_getLsbD_eq fun b hb => ?_
    simp only [BitVec.getLsbD_extractLsb', BitVec.getLsbD_ushiftRight]
    rw [← add_assoc, add_comm (2 ^ k)]
  have hwidth : 2 ^ k + 1 ≤ 2 ^ (k + 1) := Nat.pow_lt_pow_right (by decide) (by omega)
  have hsum : 2 ^ 2 ^ k + 2 ^ 2 ^ k ≤ 2 ^ 2 ^ (k + 1) := by
    rw [← mul_two, ← pow_succ]
    exact Nat.pow_le_pow_right (by decide) hwidth
  have hlo := (x.extractLsb' (2 ^ (k + 1) * l) (2 ^ k)).isLt
  have hhi := (x.extractLsb' (2 ^ (k + 1) * l + 2 ^ k) (2 ^ k)).isLt
  rw [swarStage, extractLsb'_add_of_carry_eq_false (lane_end_le hl) (carry_and_swarMask hk hl _ _),
    extractLsb'_and_swarMask hk hl, extractLsb'_and_swarMask hk hl, hshift, BitVec.toNat_add,
    BitVec.toNat_setWidth_of_le (by omega), BitVec.toNat_setWidth_of_le (by omega), Nat.mod_eq_of_lt (by omega)]

end

/-! ### The network counts set bits -/

/-- 40_popcount.md R70: every lane of x_k holds the number of set bits of that lane of w. -/
theorem swarAfter_lane (w : Word) {k l : Nat} (hk : k ≤ 6) (hl : l < 64 / 2 ^ k) :
    ((swarAfter w k).extractLsb' (2 ^ k * l) (2 ^ k)).toNat =
      countTrue (fun b => w.getLsbD (2 ^ k * l + b)) (2 ^ k) := by
  induction k generalizing l with
  | zero => simp [swarAfter, countTrue, BitVec.getLsbD, Nat.toNat_testBit, Nat.shiftRight_eq_div_pow]
  | succ k ih =>
    have hlo : 2 ^ (k + 1) * l = 2 ^ k * (2 * l) := by rw [pow_succ, mul_assoc]
    have hhi : 2 ^ (k + 1) * l + 2 ^ k = 2 ^ k * (2 * l + 1) := by rw [hlo, mul_add_one]
    have hodd : 2 * l + 1 < 64 / 2 ^ k := by
      have := lane_end_le hl
      exact (Nat.le_div_iff_mul_le (by positivity)).mpr (by grind)
    rw [swarAfter, swarStage_lane (by omega) hl, hhi, hlo, ih (by omega) (by omega), ih (by omega) hodd,
      pow_succ, mul_two, countTrue_add]
    simp only [mul_add_one, add_assoc]

/-- 40_popcount.md R71. -/
theorem toNat_swar (w : Word) : (swar w).toNat = popcnt w := by
  have h := swarAfter_lane w (k := 6) (l := 0) le_rfl (by decide)
  simpa [swar, popcnt] using h

/-- 40_popcount.md R68, R71: either circuit computes popcnt. -/
@[simp] theorem popcount_eq_popcnt (impl : PopcntImpl) (w : Word) : popcount impl w = popcnt w := by
  cases impl with
  | hw => rfl
  | swar => exact toNat_swar w

/-! ### POPCNT -/

theorem countTrue_eq_self_iff {f : Nat → Bool} {n : Nat} : countTrue f n = n ↔ ∀ k < n, f k = true := by
  induction n with
  | zero => simp [countTrue]
  | succ n ih =>
    have hle := countTrue_le f n
    rw [Nat.forall_lt_succ_right, ← ih, countTrue]
    cases f n
    · simp; omega
    · simp

theorem popcnt_eq_64_iff (w : Word) : popcnt w = 64 ↔ w = BitVec.allOnes 64 := by
  rw [popcnt, countTrue_eq_self_iff]
  constructor
  · intro h
    refine BitVec.eq_of_getLsbD_eq fun k hk => ?_
    rw [h k hk, BitVec.getLsbD_allOnes, decide_eq_true hk]
  · rintro rfl k hk
    rw [BitVec.getLsbD_allOnes, decide_eq_true hk]

theorem encode_popcnt (w : Word) : encode (.popcnt w) = { cmd := 0x1000#16, arg := w } :=
  congrArg (Request.mk · w) (by decide : commandWord 0x10#8 0#3 = 0x1000#16)

theorem decode_of_opc_popcnt {r : Request} (hz : r.cmd.z = 0#5) (ho : r.cmd.opc = 0x10#8) :
    decode r = whenLegal (r.cmd.f == 0#3) (.popcnt r.arg) := by
  simp [decode, hz, ho]

theorem popcnt_otherWordsIllegal : OtherWordsIllegal 0x10#8 (· == 0#3) :=
  otherWordsIllegal_of_decode fun r hz ho hf =>
    ⟨.functionField, (decode_of_opc_popcnt hz ho).trans (whenLegal_of_not (.popcnt r.arg) hf)⟩

theorem exec_popcnt_of_faulted (w : Word) : FaultsInFaulted (.popcnt w) :=
  fun _ hv => serve_of_faulted (.popcnt w) none _ hv

theorem exec_popcnt_of_ne_faulted {s : State} (w : Word) (hv : s.vstate ≠ .faulted) :
    exec (.popcnt w) s = .next (s.answering .ok (BitVec.ofNat 64 (popcnt w))) := by
  rw [← popcount_eq_popcnt s.cfg.impl]
  exact serve_of_legal _ hv rfl (by simp [legalIn, hv])

/-- Settles O16: POPCNT answers the circuit's count, which is popcnt in every build, and only all 64 bits count 64. -/
theorem popcntAnswersTheCount : Obligations.PopcntAnswersTheCount :=
  ⟨encode_popcnt, popcnt_otherWordsIllegal, exec_popcnt_of_faulted, fun _ w hv => exec_popcnt_of_ne_faulted w hv,
    popcnt_zero, fun w => ⟨popcnt_le w, popcnt_eq_64_iff w⟩⟩

end Sys2Proof.Machine
end

section
/-! SUPPORT. Proofs of the statements about the block encoder (41_block_encoder.md): the fields of the record make_block
gives (R73), and what STAGE_WORD, STAGE_OFFSET and ENCODE write (R77 to R79). -/

namespace Sys2Proof.Machine

/-! ### The small counts of an encoded record (41_block_encoder.md R73) -/

/-- A sum of at most three popcounts fits in the 8 bits of a small count. -/
theorem toNat_ofNat_smallCount {n : Nat} (h : n ≤ 192) : (BitVec.ofNat 8 n).toNat = n :=
  (BitVec.toNat_ofNat n 8).trans (Nat.mod_eq_of_lt (Nat.lt_of_le_of_lt h (by decide)))

section
variable (impl : PopcntImpl) (words : Quad) (count : Nat) (offset : BitVec 40)

theorem makeBlock_small0_toNat :
    (makeBlock impl words count offset).small0.toNat = popcnt ((padded words count).get 0) := by
  have h0 := popcnt_le (padded words count).w0
  simp only [makeBlock, popcount_eq_popcnt, Quad.get]
  exact toNat_ofNat_smallCount (by omega)

theorem makeBlock_small1_toNat :
    (makeBlock impl words count offset).small1.toNat =
      popcnt ((padded words count).get 0) + popcnt ((padded words count).get 1) := by
  have h0 := popcnt_le (padded words count).w0
  have h1 := popcnt_le (padded words count).w1
  simp only [makeBlock, popcount_eq_popcnt, Quad.get]
  exact toNat_ofNat_smallCount (by omega)

theorem makeBlock_small2_toNat :
    (makeBlock impl words count offset).small2.toNat =
      popcnt ((padded words count).get 0) + popcnt ((padded words count).get 1) +
        popcnt ((padded words count).get 2) := by
  have h0 := popcnt_le (padded words count).w0
  have h1 := popcnt_le (padded words count).w1
  have h2 := popcnt_le (padded words count).w2
  simp only [makeBlock, popcount_eq_popcnt, Quad.get]
  exact toNat_ofNat_smallCount (by omega)

end

/-- Settles O19: the payload is the padded words, the large count is the split offset, and no small count overflows its
8 bits. -/
theorem makeBlockFields : Obligations.MakeBlockFields := by
  rintro impl words count offset - - _ rfl
  exact ⟨padded_get words count, makeBlock_largeLo impl words count offset, makeBlock_largeHi impl words count offset,
    makeBlock_small0_toNat impl words count offset, makeBlock_small1_toNat impl words count offset,
    makeBlock_small2_toNat impl words count offset⟩

/-! ### Command words -/

/-- With Z = 0 the fields do not overlap: a command word is its OPC byte over zeros, or-ed with F
(30_encoding.md R58). -/
theorem commandWord_eq_or (opc : BitVec 8) (f : FField) : commandWord opc f = (opc ++ 0#8) ||| f.setWidth 16 := by
  refine BitVec.eq_of_getLsbD_eq fun k hk => ?_
  simp only [commandWord, BitVec.getLsbD_append, BitVec.getLsbD_or, BitVec.getLsbD_setWidth, BitVec.getLsbD_zero]
  by_cases hf : k < 3
  · simp [hf, hk, show k < 8 by omega]
  · have hz : f.getLsbD k = false := BitVec.getLsbD_of_ge f k (by omega)
    by_cases ho : k < 8
    · simp [hf, hz, ho, show k - 3 < 5 by omega]
    · simp [hf, hz, ho, show ¬k - 3 < 5 by omega, show k - 3 - 5 = k - 8 by omega]

theorem encode_stageWord (j : FField) (w : Word) :
    encode (.stageWord j w) = { cmd := 0x1100#16 ||| j.setWidth 16, arg := w } :=
  congrArg (Request.mk · w) (commandWord_eq_or 0x11#8 j)

theorem encode_stageOffset (off : Word) : encode (.stageOffset off) = { cmd := 0x1200#16, arg := off } :=
  congrArg (Request.mk · off) (commandWord_eq_or 0x12#8 0#3)

theorem encode_encode_cmd (count : FField) : (encode (.encode count)).cmd = 0x1300#16 ||| count.setWidth 16 :=
  commandWord_eq_or 0x13#8 count

theorem decode_of_opc_stageWord {r : Request} (hz : r.cmd.z = 0#5) (ho : r.cmd.opc = 0x11#8) :
    decode r = whenLegal (decide (r.cmd.f.toNat ≤ 3)) (.stageWord r.cmd.f r.arg) := by
  simp [decode, hz, ho]

theorem decode_of_opc_stageOffset {r : Request} (hz : r.cmd.z = 0#5) (ho : r.cmd.opc = 0x12#8) :
    decode r = whenLegal (r.cmd.f == 0#3) (.stageOffset r.arg) := by
  simp [decode, hz, ho]

theorem stageWord_otherWordsIllegal : OtherWordsIllegal 0x11#8 (fun f => decide (f.toNat ≤ 3)) :=
  otherWordsIllegal_of_decode fun r hz ho hf =>
    ⟨.functionField, (decode_of_opc_stageWord hz ho).trans (whenLegal_of_not (.stageWord r.cmd.f r.arg) hf)⟩

theorem stageOffset_otherWordsIllegal : OtherWordsIllegal 0x12#8 (· == 0#3) :=
  otherWordsIllegal_of_decode fun r hz ho hf =>
    ⟨.functionField, (decode_of_opc_stageOffset hz ho).trans (whenLegal_of_not (.stageOffset r.arg) hf)⟩

/-- Every F is an ENCODE (30_encoding.md R60), so only the words with Z ≠ 0 are illegal. -/
theorem encode_otherWordsIllegal : OtherWordsIllegal 0x13#8 (fun _ => true) :=
  otherWordsIllegal_of_decode fun _ _ _ hf => absurd hf (by decide)

/-! ### STAGE_WORD (41_block_encoder.md R77) -/

theorem stageSlot_eq {j : FField} {m : Fin 4} (h : j.toNat = m.val) : stageSlot j = m := by
  refine Fin.ext ?_
  calc (stageSlot j).val
      = j.toNat % 4 := by simp [stageSlot]
    _ = m.val := by omega

theorem exec_stageWord_of_faulted (j : FField) (w : Word) : FaultsInFaulted (.stageWord j w) :=
  fun _ hv => serve_of_faulted (.stageWord j w) none _ hv

theorem exec_stageWord_of_ne_faulted {s : State} {j : FField} {m : Fin 4} (w : Word) (hv : s.vstate ≠ .faulted)
    (hj : j.toNat = m.val) :
    exec (.stageWord j w) s = .next ({ s with stage := s.stage.set m w }.answering .ok 0#64) := by
  have hwf : (Instr.stageWord j w).wellFormed = true := decide_eq_true (by omega)
  rw [← stageSlot_eq hj]
  exact serve_of_legal _ hv hwf (by simp [legalIn, hv])

/-- Settles O22: slot j of the staging registers is written, and the other slots and the rest of the state stay. -/
theorem stageWordWritesItsSlot : Obligations.StageWordWritesItsSlot :=
  ⟨encode_stageWord, stageWord_otherWordsIllegal, exec_stageWord_of_faulted, fun s _ m w hv hj =>
    ⟨exec_stageWord_of_ne_faulted w hv hj, Quad.get_set_same s.stage m w, fun _ hk => Quad.get_set_other s.stage w hk⟩⟩

/-! ### STAGE_OFFSET (41_block_encoder.md R78) -/

theorem exec_stageOffset_of_faulted (off : Word) : FaultsInFaulted (.stageOffset off) :=
  fun _ hv => serve_of_faulted (.stageOffset off) none _ hv

section
variable {s : State} {off : Word} (hv : s.vstate ≠ .faulted)
include hv

theorem exec_stageOffset_of_le (h : 2 ^ 40 ≤ off.toNat) :
    exec (.stageOffset off) s = .next (s.answering .errRange 0#64) :=
  (serve_of_legal _ hv rfl (by simp [legalIn, hv])).trans (if_pos h)

theorem exec_stageOffset_of_lt (h : off.toNat < 2 ^ 40) :
    exec (.stageOffset off) s = .next ({ s with soff := off.extractLsb' 0 40 }.answering .ok 0#64) :=
  (serve_of_legal _ hv rfl (by simp [legalIn, hv])).trans (if_neg (Nat.not_le.mpr h))

end

/-- An offset that is not refused is staged without loss. -/
theorem toNat_extractLsb'_offset {off : Word} (h : off.toNat < 2 ^ 40) : (off.extractLsb' 0 40).toNat = off.toNat := by
  rw [BitVec.extractLsb'_toNat, Nat.shiftRight_zero, Nat.mod_eq_of_lt h]

/-- Settles O23: 2^40 or more is refused with nothing written; a smaller offset is the value SOFF takes. -/
theorem stageOffsetWritesSoff : Obligations.StageOffsetWritesSoff :=
  ⟨encode_stageOffset, stageOffset_otherWordsIllegal, exec_stageOffset_of_faulted, fun _ off hv =>
    ⟨exec_stageOffset_of_le hv,
      fun h => ⟨off.extractLsb' 0 40, toNat_extractLsb'_offset h, exec_stageOffset_of_lt hv h⟩⟩⟩

/-! ### ENCODE (41_block_encoder.md R79) -/

theorem encodeContract_of_illegal {count : FField} (h : count.toNat = 0 ∨ 4 < count.toNat) :
    encodeContract count = some .encodeCount :=
  if_neg (by simp only [FField.legalCount, decide_eq_true_eq]; omega)

theorem encodeContract_of_legal {count : FField} (h1 : 1 ≤ count.toNat) (h4 : count.toNat ≤ 4) :
    encodeContract count = none :=
  if_pos (decide_eq_true ⟨h1, h4⟩)

theorem exec_encode_of_faulted (count : FField) : FaultsInFaulted (.encode count) :=
  fun _ hv => serve_of_faulted (.encode count) (encodeContract count) _ hv

section
variable {s : State} {count : FField} (hv : s.vstate ≠ .faulted)
include hv

theorem exec_encode_of_illegal (h : count.toNat = 0 ∨ 4 < count.toNat) :
    exec (.encode count) s = .next (s.faulting .encodeCount (encode (.encode count)).cmd) := by
  simp only [exec, execEncode, encodeContract_of_illegal h]
  exact serve_of_contract .encodeCount _ hv rfl

theorem exec_encode_of_legal (h1 : 1 ≤ count.toNat) (h4 : count.toNat ≤ 4) :
    exec (.encode count) s =
      .next ({ s with encOut := makeBlock s.cfg.impl s.stage count.toNat s.soff }.answering .ok 0#64) := by
  simp only [exec, execEncode, encodeContract_of_legal h1 h4]
  exact serve_of_legal _ hv rfl (by simp [legalIn, hv])

end

/-- Settles O24: the contract check tells the counts apart; a legal one stores the record of make_block. -/
theorem encodeRunsTheBlockEncoder : Obligations.EncodeRunsTheBlockEncoder :=
  ⟨encode_encode_cmd, encode_otherWordsIllegal, exec_encode_of_faulted, fun _ _ hv =>
    ⟨exec_encode_of_illegal hv, exec_encode_of_legal hv⟩⟩

end Sys2Proof.Machine
end

section
/-! SUPPORT. Proofs of the statements about the load sequencer (42_vector_load.md): how LOAD_BEGIN starts a load
(R82). -/

namespace Sys2Proof.Machine

/-! ### LOAD_BEGIN (42_vector_load.md R82) -/

theorem encode_loadBegin (n : Word) : encode (.loadBegin n) = { cmd := 0x0200#16, arg := n } :=
  congrArg (Request.mk · n) (commandWord_eq_or 0x02#8 0#3)

theorem decode_of_opc_loadBegin {r : Request} (hz : r.cmd.z = 0#5) (ho : r.cmd.opc = 0x02#8) :
    decode r = whenLegal (r.cmd.f == 0#3) (.loadBegin r.arg) := by
  simp [decode, hz, ho]

theorem loadBegin_otherWordsIllegal : OtherWordsIllegal 0x02#8 (· == 0#3) :=
  otherWordsIllegal_of_decode fun r hz ho hf =>
    ⟨.functionField, (decode_of_opc_loadBegin hz ho).trans (whenLegal_of_not (.loadBegin r.arg) hf)⟩

theorem exec_loadBegin_of_faulted (n : Word) : FaultsInFaulted (.loadBegin n) :=
  fun s hv => serve_of_faulted (.loadBegin n) (loadContract s.vstate) _ hv

/-- The contract check comes before the size check: a populated unit faults whatever n is. -/
theorem exec_loadBegin_of_populated {s : State} (n : Word) (hv : s.vstate = .loading ∨ s.vstate = .ready) :
    exec (.loadBegin n) s = .next (s.faulting .loadNotEmpty 0x0200#16) := by
  have hne : s.vstate ≠ .faulted := by
    obtain hl | hr := hv
    · simp [hl]
    · simp [hr]
  have hc : loadContract s.vstate = some .loadNotEmpty := if_pos hv
  have hcmd : (encode (.loadBegin n)).cmd = 0x0200#16 := congrArg Request.cmd (encode_loadBegin n)
  rw [← hcmd]
  simp only [exec, execLoadBegin, hc]
  exact serve_of_contract .loadNotEmpty _ hne rfl

section
variable {s : State} {n : Word} (hv : s.vstate = .empty)
include hv

/-- In EMPTY only the size check is left. -/
theorem exec_loadBegin_of_empty :
    exec (.loadBegin n) s =
      if 256 * s.cfg.maxBlocks < n.toNat then recoverable .errAlloc s else done 0#64 (beginLoad n.toNat s) := by
  have hc : loadContract s.vstate = none := by simp [loadContract, hv]
  simp only [exec, execLoadBegin, hc]
  exact serve_of_legal _ (by simp [hv]) rfl (by simp [legalIn, hv])

theorem exec_loadBegin_of_lt (h : 256 * s.cfg.maxBlocks < n.toNat) :
    exec (.loadBegin n) s = .next (s.answering .errAlloc 0#64) :=
  (exec_loadBegin_of_empty hv).trans (if_pos h)

theorem exec_loadBegin_of_le (h : n.toNat ≤ 256 * s.cfg.maxBlocks) :
    exec (.loadBegin n) s = .next ((beginLoad n.toNat s).answering .ok 0#64) :=
  (exec_loadBegin_of_empty hv).trans (if_neg (Nat.not_lt.mpr h))

end

section
variable {n : Nat} (h : n ≤ 2 ^ 40)
include h

/-- A length of at most 2^40 bits fits LEN, and its counts fit NB and W_TOTAL (00_scope.md R10). -/
theorem toNat_ofNat_len : (BitVec.ofNat 41 n).toNat = n := by
  rw [BitVec.toNat_ofNat, Nat.mod_eq_of_lt (by omega)]

theorem toNat_ofNat_blocksOf : (BitVec.ofNat 33 (blocksOf n)).toNat = blocksOf n := by
  rw [BitVec.toNat_ofNat, Nat.mod_eq_of_lt (by unfold blocksOf; omega)]

theorem toNat_ofNat_wordsOf : (BitVec.ofNat 35 (wordsOf n)).toNat = wordsOf n := by
  rw [BitVec.toNat_ofNat, Nat.mod_eq_of_lt (by unfold wordsOf; omega)]

end

/-- Settles O27: a populated unit faults, an empty one refuses what its build has no blocks for, and in a legal build
the length it accepts and the counts of that length fit their registers. -/
theorem loadBeginStartsALoad : Obligations.LoadBeginStartsALoad := by
  refine ⟨encode_loadBegin, loadBegin_otherWordsIllegal, exec_loadBegin_of_faulted, fun s n =>
    ⟨exec_loadBegin_of_populated n, exec_loadBegin_of_lt, fun hv ⟨_, hmax⟩ hn => ?_⟩⟩
  have hsize : n.toNat ≤ 2 ^ 40 := by omega
  exact ⟨.ofNat 41 n.toNat, .ofNat 33 (blocksOf n.toNat), .ofNat 35 (wordsOf n.toNat), toNat_ofNat_len hsize,
    toNat_ofNat_blocksOf hsize, toNat_ofNat_wordsOf hsize, exec_loadBegin_of_le hv hn⟩

end Sys2Proof.Machine
end

section
/-! SUPPORT. Proof of the statement about NOP (44_control.md R96): its word, and that it only answers. -/

namespace Sys2Proof.Machine

theorem decode_of_opc_nop {r : Request} (hz : r.cmd.z = 0#5) (ho : r.cmd.opc = 0x00#8) :
    decode r = whenLegal (r.cmd.f == 0#3) .nop := by
  simp [decode, hz, ho]

/-- The word 0x0000 decodes with ARG 0, and NOP ignores ARG (30_encoding.md R61). -/
theorem decode_zero (a : Word) : decode { cmd := 0x0000#16, arg := a } = .instr .nop :=
  have hzero : decode { cmd := 0x0000#16, arg := 0#64 } = .instr .nop := by decide
  decode_of_ignoresArg hzero rfl a

theorem nop_otherWordsIllegal : OtherWordsIllegal 0x00#8 (· == 0#3) :=
  otherWordsIllegal_of_decode fun _ hz ho hf =>
    ⟨.functionField, (decode_of_opc_nop hz ho).trans (whenLegal_of_not .nop hf)⟩

theorem exec_nop_of_faulted : FaultsInFaulted .nop :=
  fun _ hv => serve_of_faulted .nop none _ hv

theorem exec_nop_of_ne_faulted {s : State} (hv : s.vstate ≠ .faulted) :
    exec .nop s = .next (s.answering .ok 0#64) :=
  serve_of_legal _ hv rfl rfl

/-- Settles O42: the word 0x0000 is NOP whatever ARG is, and outside FAULTED NOP is legal and writes only the
response. -/
theorem nopDoesNothing : Obligations.NopDoesNothing :=
  ⟨rfl, decode_zero, nop_otherWordsIllegal, exec_nop_of_faulted, fun _ hv => exec_nop_of_ne_faulted hv⟩

end Sys2Proof.Machine
end

section
/-! SUPPORT. Proofs of the statements about fatal faults (60_exceptions.md): what raising one writes (R102), and what a
unit in FAULTED still serves (R103). -/

namespace Sys2Proof.Machine

/-! ### Raising a fault (60_exceptions.md R102) -/

theorem faultOut_of_faulted {s : State} (hv : s.vstate = .faulted) : s.faultOut = true :=
  beq_iff_eq.mpr hv

/-- Settles O44: the registers are those `raiseFault` writes, and FAULT_OUT is a view of the VSTATE it writes. -/
theorem faultEntryRecordsCodeAndCommand : Obligations.FaultEntryRecordsCodeAndCommand :=
  fun code cmd s => ⟨rfl, faultOut_of_faulted (raiseFault_vstate code cmd s)⟩

/-! ### In FAULTED (60_exceptions.md R103) -/

/-- Every command but STATUS goes through the dispatch order of 60_exceptions.md R101; LOAD_BEGIN and ENCODE bring a
contract check to it. -/
theorem exists_exec_eq_serve {i : Instr} (hi : i ≠ .status) (s : State) :
    ∃ contract body, exec i s = serve i contract s body := by
  cases i
  case status => exact absurd rfl hi
  case loadBegin => exact ⟨loadContract s.vstate, _, rfl⟩
  case encode count => exact ⟨encodeContract count, _, rfl⟩
  all_goals exact ⟨none, _, rfl⟩

/-- The dispatch order asks for FAULTED first. -/
theorem faultsInFaulted_of_ne_status {i : Instr} (hi : i ≠ .status) : FaultsInFaulted i := by
  intro s hv
  obtain ⟨contract, body, hexec⟩ := exists_exec_eq_serve hi s
  exact hexec.trans (serve_of_faulted i contract body hv)

/-- In FAULTED, a request that does not decode is answered like every other, and raises no second fault. -/
theorem step_of_illegal_of_faulted {s : State} {r : Request} {rest : List HostInput} {why : Illegal}
    (hin : s.inbox = .request r :: rest) (hv : s.vstate = .faulted) (hd : decode r = .illegal why) :
    step s = .next ((s.taking rest).answering .fault 0#64) := by
  simp only [step, arrival, hin, hd, serveIllegal, if_pos hv]
  rfl

/-- Settles O45: STATUS is served in every state; a request for another command meets the dispatch order, and one that
does not decode is refused before it. -/
theorem faultedUnitServesOnlyStatus : Obligations.FaultedUnitServesOnlyStatus := by
  refine fun s r rest hv hin => ⟨fun hd => step_of_instr hin hd, fun hd => ?_⟩
  cases hr : decode r with
  | illegal why => exact step_of_illegal_of_faulted hin hv hr
  | instr i =>
    have hi : i ≠ .status := fun h => hd (hr.trans (congrArg _ h))
    exact (step_of_instr hin hr).trans (faultsInFaulted_of_ne_status hi (s.taking rest) hv)

end Sys2Proof.Machine
end

section
/-! SUPPORT. Proofs of the statements about decoding and encoding (30_encoding.md R58 to R63): the decoder's answer said
once, as an equivalence on the fields of the request, and the 32 words that decode. -/

namespace Sys2Proof.Machine

open Sys2Proof.Laws

/-! ### The decoder as an equivalence -/

/-- 30_encoding.md R58, R60, R61, R63: the requests that decode to a command are those with Z = 0, its OPC, its F, a
legal F, and its ARG unless it ignores ARG. -/
theorem decode_eq_instr_iff {r : Request} {i : Instr} :
    decode r = .instr i ↔ r.cmd.z = 0#5 ∧ r.cmd.opc = i.opcode ∧ r.cmd.f = i.field ∧ i.wellFormed = true ∧
      (ignoresArg i = false → i.arg = r.arg) := by
  constructor
  · intro hd
    by_cases hz : r.cmd.z = 0#5
    · refine ⟨hz, ?_⟩
      simp only [decode, hz, ne_eq, not_true_eq_false, if_false] at hd
      split at hd
      case h_8 hopc =>
        cases hd
        exact ⟨hopc, rfl, rfl, by simp [ignoresArg]⟩
      case h_15 => cases hd
      all_goals
        next hopc =>
          obtain ⟨hlegal, rfl⟩ := whenLegal_eq_instr_iff.mp hd
          exact ⟨hopc, by simp_all [Instr.field], by simp_all [Instr.wellFormed], by simp [ignoresArg, Instr.arg]⟩
    · rw [decode_of_z_ne_zero hz] at hd
      cases hd
  · rintro ⟨hz, ho, hf, hwf, ha⟩
    cases i <;> simp_all [decode, Instr.opcode, Instr.field, Instr.wellFormed, ignoresArg, Instr.arg]

/-- Settles O5: the encoder puts each field where the decoder reads it. -/
theorem encodeThenDecodeGivesTheCommand : Obligations.EncodeThenDecodeGivesTheCommand := by
  intro i hwf
  obtain ⟨ho, hz, hf, ha⟩ := encodedFields_of i
  exact decode_eq_instr_iff.mpr ⟨hz, ho, hf, hwf, fun _ => ha.symm⟩

/-- A command word with Z = 0 is the word of its own OPC and F. -/
theorem commandWord_opc_f {c : CmdWord} (hz : c.z = 0#5) : commandWord c.opc c.f = c :=
  calc commandWord c.opc c.f
      = c.extractLsb' (3 + 5) 8 ++ c.extractLsb' 3 5 ++ c.extractLsb' 0 3 := by rw [commandWord, ← hz]; rfl
    _ = c.extractLsb' (0 + 3) (8 + 5) ++ c.extractLsb' 0 3 := by
      rw [BitVec.extractLsb'_append_extractLsb'_eq_extractLsb' rfl]
    _ = c := by
      rw [BitVec.extractLsb'_append_extractLsb'_eq_extractLsb' rfl]
      exact BitVec.extractLsb'_eq_self

theorem cmd_of_decode {r : Request} {i : Instr} (hd : decode r = .instr i) :
    (encode i).cmd = r.cmd := by
  obtain ⟨hz, ho, hf, -, -⟩ := decode_eq_instr_iff.mp hd
  rw [encode, ← ho, ← hf, commandWord_opc_f hz]

/-- Settles O6: the fields that the decoder read are those the encoder writes. -/
theorem decodedCommandEncodesToTheWord : Obligations.DecodedCommandEncodesToTheWord := by
  intro r i hd
  obtain ⟨-, -, -, hwf, ha⟩ := decode_eq_instr_iff.mp hd
  exact ⟨hwf, cmd_of_decode hd, ha⟩

/-! ### The words that decode (30_encoding.md R63) -/

/-- A command of each legal command word: ten with F = 0, then STAGE_WORD, ENCODE, READ_ENC and READ_BLOCK with every F
that R60 allows them. -/
def legalCommands : List Instr :=
  [.nop, .clear, .loadBegin 0#64, .loadWord 0#64, .popcnt 0#64, .stageOffset 0#64, .length, .access 0#64, .rank1 0#64,
   .status,
   .stageWord 0#3 0#64, .stageWord 1#3 0#64, .stageWord 2#3 0#64, .stageWord 3#3 0#64,
   .encode 0#3, .encode 1#3, .encode 2#3, .encode 3#3, .encode 4#3, .encode 5#3, .encode 6#3, .encode 7#3,
   .readEnc 0#3, .readEnc 1#3, .readEnc 2#3, .readEnc 3#3, .readEnc 4#3,
   .readBlock 0#3 0#64, .readBlock 1#3 0#64, .readBlock 2#3 0#64, .readBlock 3#3 0#64, .readBlock 4#3 0#64]

def legalWords : List CmdWord := legalCommands.map fun i => (encode i).cmd

theorem wellFormed_of_mem_legalCommands : ∀ i ∈ legalCommands, i.wellFormed = true := by decide

theorem encode_cmd_mem_legalWords {i : Instr} (hwf : i.wellFormed = true) : (encode i).cmd ∈ legalWords := by
  have hstage : ∀ j : FField, j.toNat ≤ 3 → commandWord 0x11#8 j ∈ legalWords := by decide
  have hencode : ∀ count : FField, commandWord 0x13#8 count ∈ legalWords := by decide
  have henc : ∀ k : FField, k.toNat ≤ 4 → commandWord 0x14#8 k ∈ legalWords := by decide
  have hblock : ∀ k : FField, k.toNat ≤ 4 → commandWord 0x23#8 k ∈ legalWords := by decide
  cases i with
  | stageWord j w => exact hstage j (of_decide_eq_true hwf)
  | encode count => exact hencode count
  | readEnc k => exact henc k (of_decide_eq_true hwf)
  | readBlock k q => exact hblock k (of_decide_eq_true hwf)
  | _ => simp [legalWords, legalCommands, encode, Instr.opcode, Instr.field]

/-- Whether a request decodes depends on its command word only. -/
theorem exists_decode_of_cmd_eq {r u : Request} {i : Instr} (h : u.cmd = r.cmd) (hd : decode r = .instr i) :
    ∃ j, decode u = .instr j := by
  obtain ⟨j, hj, -⟩ := exists_decode_eq_instr (r := u) fun hbad => by
    obtain ⟨why, hwhy⟩ := exists_decode_eq_illegal (h ▸ hbad)
    cases hd.symm.trans hwhy
  exact ⟨j, hj⟩

/-- Settles O8: the words are those of the 32 listed commands, and a word that decodes is the encoder's for a
well-formed command. -/
theorem exactlyThirtyTwoWordsDecode : Obligations.ExactlyThirtyTwoWordsDecode := by
  refine ⟨legalWords, by decide, rfl, fun r => ⟨fun h => ?_, fun ⟨i, hd⟩ => ?_⟩⟩
  · obtain ⟨i, hi, hcmd⟩ := List.mem_map.mp h
    exact exists_decode_of_cmd_eq hcmd.symm (encodeThenDecodeGivesTheCommand i (wellFormed_of_mem_legalCommands i hi))
  · obtain ⟨-, -, -, hwf, -⟩ := decode_eq_instr_iff.mp hd
    rw [← cmd_of_decode hd]
    exact encode_cmd_mem_legalWords hwf

/-- Settles O9: each word is read field by field. -/
theorem sampleWordsDecode : Obligations.SampleWordsDecode := by
  unfold Obligations.SampleWordsDecode
  decide

end Sys2Proof.Machine
end

section
/-! SUPPORT. Proofs of the statements about one step: waiting (10_state.md R18), running the decoded command
(60_exceptions.md R101) and reset, the only way out of FAULTED (70_reset_and_hazards.md R109). -/

namespace Sys2Proof.Machine

theorem step_of_empty {s : State} (hin : s.inbox = []) : step s = .next (idleStep s) := by
  simp only [step, arrival, hin]

theorem step_of_reset {s : State} {cutOff : Option Request} {rest : List HostInput}
    (hin : s.inbox = .reset cutOff :: rest) : step s = .next (takeReset s rest) := by
  simp only [step, arrival, hin]

/-- Settles O3: the idle step writes the response port only. -/
theorem waitingUnitChangesNothing : Obligations.WaitingUnitChangesNothing :=
  fun _ => step_of_empty

/-- Settles O4: the decoder's command is the one the step runs. -/
theorem stepRunsDecodedCommand : Obligations.StepRunsDecodedCommand :=
  fun _ _ _ _ hin hd => step_of_instr hin hd

/-! ### Reset -/

theorem takeReset_atReset (s : State) (rest : List HostInput) : (takeReset s rest).AtReset :=
  { resetOf_atReset s.cfg with }

/-- In FAULTED a command is answered and stays in FAULTED (60_exceptions.md R103). -/
theorem Effect.vstate_of_faulted {s t : State} {i : Instr} (h : Effect s i t) (hv : s.vstate = .faulted) :
    t.vstate = .faulted := by
  cases h with
  | inFaulted | error | answered => exact hv
  | raised => rfl
  | _ => simp_all

/-- Settles O2: reset writes the reset state, and every other step in FAULTED stays there. -/
theorem resetInputResets : Obligations.ResetInputResets := by
  refine ⟨fun s cutOff rest hin => ⟨takeReset s rest, step_of_reset hin, takeReset_atReset s rest, rfl, rfl, rfl⟩,
    fun s t hv hstep hne => ?_⟩
  obtain ⟨-, rfl⟩ | ⟨cutOff, rest, hin, -⟩ | ⟨r, rest, why, -, -, ⟨-, rfl⟩ | ⟨hlive, -⟩⟩ | ⟨r, rest, i, -, -, hexec⟩ :=
    step_next hstep
  · exact absurd hv hne
  · exact ⟨cutOff, rest, hin⟩
  · exact absurd hv hne
  · exact absurd hv hlive
  · exact absurd ((exec_effect hexec).vstate_of_faulted hv) hne

end Sys2Proof.Machine
end

section
/-! SUPPORT. Proofs of the statements about what the popcount network holds (40_popcount.md R70, R71), the bits of a
block record (10_state.md R33, R34), the encoder's counts (41_block_encoder.md R74, R76), and the index split and
LEADMASK of the query mux (43_query.md R87, R88). -/

namespace Sys2Proof.Machine

/-! ### The SWAR network -/

/-- Settles O13: the lanes of every x_k, and the exact sum of one more stage. -/
theorem swarLanesHoldPopcounts : Obligations.SwarLanesHoldPopcounts :=
  fun w k => ⟨fun hk _ hl => swarAfter_lane w hk hl, fun hk _ hl => swarStage_lane hk hl (swarAfter w k)⟩

/-- Settles O14: the one lane of x_6 is the whole word. -/
theorem swarNetworkCountsSetBits : Obligations.SwarNetworkCountsSetBits :=
  toNat_swar

/-! ### The bits of a record (10_state.md R33, R34) -/

theorem BlockRecord.large_toNat (r : BlockRecord) : r.large.toNat = r.largeHi.toNat * 2 ^ 32 + r.largeLo.toNat := by
  have hhi := r.largeHi.isLt
  have hlo := r.largeLo.isLt
  simp only [BlockRecord.large, BitVec.toNat_add, BitVec.toNat_shiftLeft, BitVec.toNat_setWidth, Nat.shiftLeft_eq]
  omega

/-- The fields below the payload words, lowest first: each is found by dropping the fields below it. -/
theorem BlockRecord.toBits_counts (r : BlockRecord) :
    r.toBits.extractLsb' 0 32 = r.largeLo ∧ r.toBits.extractLsb' 32 8 = r.largeHi ∧
    r.toBits.extractLsb' 40 8 = r.small0 ∧ r.toBits.extractLsb' 48 8 = r.small1 ∧
    r.toBits.extractLsb' 56 8 = r.small2 := by
  unfold BlockRecord.toBits
  refine ⟨?_, ?_, ?_, ?_, ?_⟩
  all_goals
    repeat rw [BitVec.extractLsb'_append_eq_of_le (by decide)]
    exact BitVec.extractLsb'_append_eq_right

theorem BlockRecord.toBits_payload (r : BlockRecord) (m : Fin 4) :
    r.toBits.extractLsb' (64 * (m.val + 1)) 64 = r.payload.get m := by
  unfold BlockRecord.toBits
  fin_cases m
  all_goals repeat rw [BitVec.extractLsb'_append_eq_of_le (by decide)]
  · exact BitVec.extractLsb'_append_eq_right
  · exact BitVec.extractLsb'_append_eq_right
  · exact BitVec.extractLsb'_append_eq_right
  · exact BitVec.extractLsb'_eq_self

/-- Settles O17: the counts and the payload words are slices of the 320 bits, and a chunk is one by definition. -/
theorem blockRecordLayout : Obligations.BlockRecordLayout := by
  intro r
  obtain ⟨hlo, hhi, h0, h1, h2⟩ := r.toBits_counts
  exact ⟨hlo, hhi, h0, h1, h2, r.toBits_payload, fun _ _ => rfl, r.large_toNat⟩

theorem wordIndex_eq {r : Nat} {m : Fin 4} (hm : m.val = r % 256 / 64) : wordIndex r = m :=
  Fin.ext hm.symm

theorem BlockRecord.bit_eq (rec : BlockRecord) {r : Nat} {m : Fin 4} (hm : m.val = r % 256 / 64) :
    rec.bit r = (rec.payload.get m).getLsbD (63 - r % 64) := by
  rw [BlockRecord.bit, wordIndex_eq hm]
  rfl

theorem BlockRecord.logicalPayload_word (rec : BlockRecord) (m : Fin 4) :
    rec.logicalPayload.extractLsb' (64 * (3 - m.val)) 64 = rec.payload.get m := by
  unfold BlockRecord.logicalPayload
  fin_cases m
  all_goals repeat rw [BitVec.extractLsb'_append_eq_of_le (by decide)]
  · exact BitVec.extractLsb'_eq_self
  · exact BitVec.extractLsb'_append_eq_right
  · exact BitVec.extractLsb'_append_eq_right
  · exact BitVec.extractLsb'_append_eq_right

theorem BlockRecord.getLsbD_logicalPayload (rec : BlockRecord) {r : Nat} {m : Fin 4} (hr : r < 256)
    (hm : m.val = r / 64) : rec.logicalPayload.getLsbD (255 - r) = (rec.payload.get m).getLsbD (63 - r % 64) := by
  have hpos : 64 * (3 - m.val) + (63 - r % 64) = 255 - r := by omega
  rw [← rec.logicalPayload_word, BitVec.getLsbD_extractLsb', hpos, decide_eq_true (by omega), Bool.true_and]

/-- Settles O18: word m of the payload stands 64·m positions below the top of the logical payload. -/
theorem blockPositionsAreMsbFirst : Obligations.BlockPositionsAreMsbFirst := by
  intro rec r m hr hm
  have hlogical := rec.getLsbD_logicalPayload hr hm
  have hbit := rec.bit_eq (r := r) (m := m) (by omega)
  exact ⟨rfl, hlogical, hbit.trans hlogical.symm⟩

/-! ### The encoder's counts (41_block_encoder.md R74, R76) -/

@[simp] theorem makeBlock_large (impl : PopcntImpl) (words : Quad) (count : Nat) (offset : BitVec 40) :
    (makeBlock impl words count offset).large = offset := by
  refine BitVec.eq_of_toNat_eq ?_
  have h := offset.isLt
  rw [BlockRecord.large_toNat, makeBlock_largeLo, makeBlock_largeHi, BitVec.extractLsb'_toNat, BitVec.extractLsb'_toNat]
  omega

/-- Settles O20: LARGE puts the two parts of the offset together, and a wider offset is not staged. -/
theorem largeCountIsTheOffset : Obligations.LargeCountIsTheOffset :=
  ⟨makeBlock_large, fun _ _ hv h => exec_stageOffset_of_le hv h⟩

/-- Settles O21: the small counts are running sums of popcounts, each at most 64. -/
theorem makeBlockCountsAreBounded : Obligations.MakeBlockCountsAreBounded := by
  intro impl words count offset h1 h4 rec hrec
  obtain ⟨hpayload, -, -, hs0, hs1, hs2⟩ := makeBlockFields impl words count offset h1 h4 rec hrec
  have hc0 := popcnt_le (rec.payload.get 0)
  have hc1 := popcnt_le (rec.payload.get 1)
  have hc2 := popcnt_le (rec.payload.get 2)
  refine ⟨by omega, by omega, by omega, by omega, by omega, hc1, hc2, fun m hm => ?_⟩
  rw [hpayload m, if_neg (by omega)]

/-! ### The query mux (43_query.md R87, R88) -/

/-- Settles O33: a slice is a quotient and a remainder by powers of two. -/
theorem indexSplitsIntoSlices : Obligations.IndexSplitsIntoSlices := by
  intro i hi
  simp only [blockIndex, wordIndex, bitOffset, BitVec.extractLsb'_toNat, Nat.shiftRight_eq_div_pow]
  exact ⟨trivial, by omega, by omega, trivial, by omega, by omega, by omega⟩

/-- Counting from the other end. -/
theorem countTrue_reverse (f : Nat → Bool) (n : Nat) : countTrue (fun p => f (n - 1 - p)) n = countTrue f n := by
  induction n with
  | zero => rfl
  | succ n ih =>
    calc countTrue (fun p => f (n + 1 - 1 - p)) (n + 1)
        = countTrue (fun p => f (n - p)) (1 + n) := by rw [Nat.add_comm 1 n]; rfl
      _ = countTrue (fun p => f (n - 1 - p)) n + (f n).toNat := by
        rw [countTrue_add, Nat.add_comm]
        simp [countTrue, Nat.sub_sub]
      _ = countTrue f (n + 1) := by rw [ih]; rfl

theorem getLsbD_leadMask {b k : Nat} (hb : b ≤ 64) (hk : k < 64) : (leadMask b).getLsbD k = decide (64 - b ≤ k) := by
  rw [leadMask, BitVec.getLsbD_not, BitVec.getLsbD_ushiftRight, BitVec.getLsbD_allOnes]
  simp only [hk, decide_true, Bool.true_and, ← decide_not, decide_eq_decide]
  omega

theorem popcnt_and_leadMask (w : Word) {b : Nat} (hb : b ≤ 64) :
    popcnt (w &&& leadMask b) = countTrue (fun p => w.getLsbD (63 - p)) b := by
  have hsplit : popcnt (w &&& leadMask b) = countTrue (w &&& leadMask b).getLsbD (64 - b + b) := by
    rw [Nat.sub_add_cancel hb, popcnt]
  have hbelow : countTrue (w &&& leadMask b).getLsbD (64 - b) = 0 := countTrue_of_false fun k hk => by
    rw [BitVec.getLsbD_and, getLsbD_leadMask hb (by omega), decide_eq_false (by omega), Bool.and_false]
  rw [hsplit, countTrue_add, hbelow, zero_add, ← countTrue_reverse]
  refine countTrue_congr fun p hp => ?_
  rw [BitVec.getLsbD_and, getLsbD_leadMask hb (by omega), decide_eq_true (by omega), Bool.and_true]
  congr 1
  omega

/-- Settles O34: bit k of the mask is set just when position 63 - k is before b, so the masked count is the count of
those positions. -/
theorem leadMaskKeepsLeadingPositions : Obligations.LeadMaskKeepsLeadingPositions :=
  fun b hb => ⟨rfl, fun k hk => getLsbD_leadMask (by omega) hk, by decide, fun w => popcnt_and_leadMask w (by omega)⟩

end Sys2Proof.Machine
end

section
/-! SUPPORT. Proofs of the statements about the unit's invariant (10_state.md R26, R30, R36, R37): it holds after reset
and every step keeps it. -/

namespace Sys2Proof.Machine

/-! ### The popcount of the stored records -/

theorem BlockRecord.ones_le (r : BlockRecord) : r.ones ≤ 256 := by
  have h0 := popcnt_le r.payload.w0
  have h1 := popcnt_le r.payload.w1
  have h2 := popcnt_le r.payload.w2
  have h3 := popcnt_le r.payload.w3
  unfold BlockRecord.ones
  omega

theorem BlockStore.onesBefore_succ_of_read {bs : BlockStore} {q : Nat} {r : BlockRecord} (h : bs.read q = some r) :
    bs.onesBefore (q + 1) = bs.onesBefore q + r.ones := by
  simp only [BlockStore.onesBefore, h]

theorem BlockStore.onesBefore_le (bs : BlockStore) (q : Nat) : bs.onesBefore q ≤ 256 * q := by
  induction q with
  | zero => exact Nat.le_refl 0
  | succ q ih =>
    cases h : bs.read q with
    | none =>
      simp only [BlockStore.onesBefore, h]
      omega
    | some r =>
      have := r.ones_le
      rw [onesBefore_succ_of_read h]
      omega

theorem BlockStore.onesBefore_mono (bs : BlockStore) {p q : Nat} (h : p ≤ q) : bs.onesBefore p ≤ bs.onesBefore q := by
  induction q, h using Nat.le_induction with
  | base => exact Nat.le_refl _
  | succ q _ ih => exact ih.trans (Nat.le_add_right _ _)

/-! ### The encoder's record -/

/-- RUNNING grows by the popcount of the record written (42_vector_load.md R83). -/
theorem groupCount_eq_ones (p : PopcntImpl) (words : Quad) (g : Nat) (off : BitVec 40) :
    groupCount p words g = (makeBlock p words g off).ones := by
  simp [groupCount, BlockRecord.ones]

/-- The record of make_block is the encoder's for its count and offset (41_block_encoder.md R73). -/
theorem makeBlock_good (p : PopcntImpl) (words : Quad) (count : Nat) (off : BitVec 40) :
    (makeBlock p words count off).Good count off.toNat where
  large_eq := by rw [makeBlock_large]
  small0_eq := makeBlock_small0_toNat p words count off
  small1_eq := makeBlock_small1_toNat p words count off
  small2_eq := makeBlock_small2_toNat p words count off
  padding_eq m hm := by rw [makeBlock_payload, padded_get, if_neg (Nat.not_lt.mpr hm)]

/-! ### Commands that keep the vector registers -/

/-- Settles O55: after reset the registers are 0 and no record is listed. -/
theorem invariantHoldsAfterReset : Obligations.InvariantHoldsAfterReset := fun c hc =>
  { config_legal := hc
    store_wf := List.Pairwise.nil
    store_bound := by simp [State.resetOf]
    len_le := Nat.zero_le _
    nb_eq := (by decide : (0#33).toNat = blocksOf (0#41).toNat)
    wTotal_eq := (by decide : (0#35).toNat = wordsOf (0#41).toNat)
    gcnt_le := Nat.zero_le _
    bidx_le := Nat.zero_le _
    records_good := fun _ hq => absurd hq (Nat.not_lt_zero _)
    running_eq := rfl
    phase := ⟨rfl, rfl, rfl, rfl, rfl, rfl, rfl⟩
    fault_record := ⟨rfl, rfl⟩ }

theorem State.Inv.respond {s : State} (h : s.Inv) (rsp : Rsp) (v : Word) : (respond rsp v s).Inv := { h with }

theorem State.Inv.idleStep {s : State} (h : s.Inv) : (idleStep s).Inv := { h with }

theorem State.Inv.taking {s : State} (h : s.Inv) (rest : List HostInput) : (s.taking rest).Inv := { h with }

theorem State.Inv.stage {s : State} (h : s.Inv) (stage : Quad) : { s with stage := stage }.Inv := { h with }

theorem State.Inv.soff {s : State} (h : s.Inv) (soff : BitVec 40) : { s with soff := soff }.Inv := { h with }

theorem State.Inv.encOut {s : State} (h : s.Inv) (rec : BlockRecord) : { s with encOut := rec }.Inv := { h with }

theorem State.Inv.raiseFault {s : State} (h : s.Inv) {code : FaultCode} (hc : code ≠ .none) (cmd : CmdWord) :
    (raiseFault code cmd s).Inv :=
  { h with phase := trivial, fault_record := hc }

/-- The reset state meets the invariant in every build that does, whatever the host does later. -/
theorem State.Inv.takeReset {s : State} (h : s.Inv) (rest : List HostInput) : (takeReset s rest).Inv :=
  { invariantHoldsAfterReset s.cfg h.config_legal with }

/-! ### What the invariant says in each lifecycle state -/

section
variable {s : State} (h : s.Inv)
include h

theorem State.Inv.phase_empty (hv : s.vstate = .empty) :
    s.len = 0#41 ∧ s.nb = 0#33 ∧ s.wTotal = 0#35 ∧ s.wDone = 0#35 ∧ s.bidx = 0#33 ∧ s.running = 0#41 ∧
      s.gcnt = 0#3 := by
  simpa only [State.PhaseInv, hv] using h.phase

theorem State.Inv.phase_loading (hv : s.vstate = .loading) :
    1 ≤ s.len.toNat ∧ s.wDone.toNat < s.wTotal.toNat ∧ s.wDone.toNat = 4 * s.bidx.toNat + s.gcnt.toNat := by
  simpa only [State.PhaseInv, hv] using h.phase

theorem State.Inv.phase_ready (hv : s.vstate = .ready) : s.bidx = s.nb ∧ s.wDone = s.wTotal ∧ s.gcnt = 0#3 := by
  simpa only [State.PhaseInv, hv] using h.phase

theorem State.Inv.no_fault (hv : s.vstate ≠ .faulted) : s.faultCode = .none ∧ s.faultCmd = 0#16 := by
  simpa only [if_neg hv] using h.fault_record

theorem State.Inv.nb_le : s.nb.toNat ≤ s.cfg.maxBlocks := by
  have hlen := h.len_le
  rw [h.nb_eq, blocksOf]
  omega

theorem State.Inv.bidx_lt_nb (hv : s.vstate = .loading) : s.bidx.toNat < s.nb.toNat := by
  obtain ⟨-, hlt, heq⟩ := h.phase_loading hv
  have hw := h.wTotal_eq
  rw [h.nb_eq]
  unfold blocksOf
  unfold wordsOf at hw
  omega

theorem State.Inv.bidx_lt_maxBlocks (hv : s.vstate = .loading) : s.bidx.toNat < s.cfg.maxBlocks :=
  (h.bidx_lt_nb hv).trans_le h.nb_le

/-- RUNNING fits the 40 bits of an offset while a block is missing (41_block_encoder.md R73). -/
theorem State.Inv.running_lt (hv : s.vstate = .loading) : s.running.toNat < 2 ^ 40 := by
  have hb := h.bidx_lt_maxBlocks hv
  have hones := s.store.onesBefore_le s.bidx.toNat
  obtain ⟨-, hmax⟩ := h.config_legal
  rw [h.running_eq]
  omega

theorem State.Inv.toNat_offset (hv : s.vstate = .loading) :
    (s.running.extractLsb' 0 40).toNat = s.running.toNat := by
  rw [BitVec.extractLsb'_toNat, Nat.shiftRight_zero, Nat.mod_eq_of_lt (h.running_lt hv)]

theorem State.Inv.toNat_bidx_succ (hv : s.vstate = .loading) : (s.bidx + 1#33).toNat = s.bidx.toNat + 1 := by
  have hb := h.bidx_lt_nb hv
  bv_omega

theorem State.Inv.toNat_wDone_succ (hv : s.vstate = .loading) : (s.wDone + 1#35).toNat = s.wDone.toNat + 1 := by
  obtain ⟨-, hlt, -⟩ := h.phase_loading hv
  bv_omega

/-- LOAD_WORD's test for the last word, as a count of words. -/
theorem State.Inv.last_iff (hv : s.vstate = .loading) :
    s.wDone + 1#35 = s.wTotal ↔ s.wDone.toNat + 1 = s.wTotal.toNat := by
  rw [← BitVec.toNat_inj, h.toNat_wDone_succ hv]

end

theorem toNat_ofNat_gcnt (m : Fin 4) : (BitVec.ofNat 3 (m.val + 1)).toNat = m.val + 1 := by
  rw [BitVec.toNat_ofNat, Nat.mod_eq_of_lt (by omega)]

/-! ### CLEAR and LOAD_BEGIN -/

theorem State.Inv.clearVector {s : State} (h : s.Inv) (hv : s.vstate ≠ .faulted) : (clearVector s).Inv :=
  { h with
    len_le := Nat.zero_le _
    nb_eq := (by decide : (0#33).toNat = blocksOf (0#41).toNat)
    wTotal_eq := (by decide : (0#35).toNat = wordsOf (0#41).toNat)
    gcnt_le := Nat.zero_le _
    bidx_le := Nat.zero_le _
    records_good := fun _ hq => absurd hq (Nat.not_lt_zero _)
    running_eq := rfl
    phase := ⟨rfl, rfl, rfl, rfl, rfl, rfl, rfl⟩
    fault_record := h.no_fault hv }

theorem State.Inv.beginLoad {s : State} (h : s.Inv) (hv : s.vstate = .empty) {n : Nat}
    (hn : n ≤ 256 * s.cfg.maxBlocks) : (beginLoad n s).Inv := by
  obtain ⟨-, hmax⟩ := h.config_legal
  have hsize : n ≤ 2 ^ 40 := by omega
  have hlen := toNat_ofNat_len hsize
  have hwt := toNat_ofNat_wordsOf hsize
  refine
    { h with
      len_le := hlen.trans_le hn
      nb_eq := ?_
      wTotal_eq := ?_
      gcnt_le := Nat.zero_le _
      bidx_le := Nat.zero_le _
      records_good := fun _ hq => absurd hq (Nat.not_lt_zero _)
      running_eq := rfl
      phase := ?_
      fault_record := ?_ }
  · rw [beginLoad_nb, beginLoad_len, toNat_ofNat_blocksOf hsize, hlen]
  · rw [beginLoad_wTotal, beginLoad_len, hwt, hlen]
  · by_cases h0 : n = 0
    · subst h0
      exact ⟨rfl, rfl, rfl⟩
    · simp only [State.PhaseInv, beginLoad_vstate, if_neg h0, beginLoad_len, beginLoad_wDone, beginLoad_wTotal,
        beginLoad_bidx, beginLoad_gcnt, hlen, wordsOf]
      exact ⟨by omega, by simp; omega, rfl⟩
  · rw [if_neg (by rw [beginLoad_vstate]; split <;> simp)]
    exact h.no_fault (by simp [hv])

/-! ### LOAD_WORD -/

/-- The record LOAD_WORD writes when its word closes a group of m + 1 words (42_vector_load.md R83). -/
def closingRecord (m : Fin 4) (w : Word) (s : State) : BlockRecord :=
  makeBlock s.cfg.impl (s.gbuf.set m w) (m.val + 1) (s.running.extractLsb' 0 40)

theorem closedGroup_takeWord_running (m : Fin 4) (w : Word) (s : State) :
    (closedGroup (m.val + 1) (takeWord m w s)).running =
      BitVec.ofNat 41 (s.running.toNat + (closingRecord m w s).ones) := by
  rw [closingRecord, ← groupCount_eq_ones]
  rfl

section
variable {s : State} (h : s.Inv) (hv : s.vstate = .loading) {m : Fin 4} (w : Word)
include h hv

/-- A word that leaves room in its group. -/
theorem State.Inv.buffered (hm : m.val = s.gcnt.toNat) (hw : s.wDone + 1#35 ≠ s.wTotal) (h4 : m.val + 1 ≠ 4) :
    { takeWord m w s with gcnt := BitVec.ofNat 3 (m.val + 1) }.Inv := by
  obtain ⟨hlen, hlt, heq⟩ := h.phase_loading hv
  have hsucc := h.toNat_wDone_succ hv
  have hgcnt := toNat_ofNat_gcnt m
  have hne := (h.last_iff hv).not.mp hw
  refine { h with gcnt_le := ?_, phase := ?_ }
  · show (BitVec.ofNat 3 (m.val + 1)).toNat ≤ 3
    omega
  · simp only [State.PhaseInv, takeWord_vstate, hv, takeWord_len, takeWord_wDone, takeWord_wTotal, takeWord_bidx,
      hsucc, hgcnt]
    omega

/-- RUNNING after a group is closed, which fits its register (42_vector_load.md R83). -/
theorem State.Inv.toNat_closedGroup_running :
    (closedGroup (m.val + 1) (takeWord m w s)).running.toNat = s.running.toNat + (closingRecord m w s).ones := by
  have hrun := h.running_lt hv
  have hones := (closingRecord m w s).ones_le
  rw [closedGroup_takeWord_running, BitVec.toNat_ofNat, Nat.mod_eq_of_lt (by omega)]

/-- Every record below BIDX + 1 is the encoder's: the new one, and those below it, which are not touched. -/
theorem State.Inv.records_closedGroup (hcount : wordsInBlock s.wTotal.toNat s.bidx.toNat = m.val + 1) :
    ∀ q < s.bidx.toNat + 1, ∃ r, (s.store.write s.bidx.toNat (closingRecord m w s)).read q = some r ∧
      r.Good (wordsInBlock s.wTotal.toNat q)
        ((s.store.write s.bidx.toNat (closingRecord m w s)).onesBefore q) := by
  intro q hq
  rw [BlockStore.onesBefore_write _ _ (by omega)]
  obtain rfl | hlt : q = s.bidx.toNat ∨ q < s.bidx.toNat := by omega
  · refine ⟨_, BlockStore.read_write_same _ _ _, ?_⟩
    rw [hcount, ← h.running_eq, ← h.toNat_offset hv]
    exact makeBlock_good _ _ _ _
  · rw [BlockStore.read_write_other _ _ (by omega)]
    exact h.records_good q hlt

/-- A word that closes its group, in the lifecycle state `v` that LOAD_WORD leaves. -/
theorem State.Inv.groupClosed {v : VState} (hcount : wordsInBlock s.wTotal.toNat s.bidx.toNat = m.val + 1)
    (hlive : v ≠ .faulted) (hphase : { closedGroup (m.val + 1) (takeWord m w s) with vstate := v }.PhaseInv) :
    { closedGroup (m.val + 1) (takeWord m w s) with vstate := v }.Inv := by
  have hbidx := h.toNat_bidx_succ hv
  have hlt := h.bidx_lt_nb hv
  have hbound := h.bidx_lt_maxBlocks hv
  have hread : (s.store.write s.bidx.toNat (closingRecord m w s)).read s.bidx.toNat = some (closingRecord m w s) :=
    BlockStore.read_write_same _ _ _
  refine
    { h with
      store_wf := BlockStore.write_wf h.store_wf _ _
      store_bound := fun c hc => ?_
      gcnt_le := Nat.zero_le _
      bidx_le := hbidx.trans_le hlt
      records_good := fun q hq => h.records_closedGroup hv w hcount q (hq.trans_eq hbidx)
      running_eq := ?_
      phase := hphase
      fault_record := ?_ }
  · obtain rfl | hmem := BlockStore.mem_write hc
    · exact hbound
    · exact h.store_bound c hmem
  · calc (closedGroup (m.val + 1) (takeWord m w s)).running.toNat
        = s.store.onesBefore s.bidx.toNat + (closingRecord m w s).ones := by
          rw [h.toNat_closedGroup_running hv w, h.running_eq]
      _ = (s.store.write s.bidx.toNat (closingRecord m w s)).onesBefore (s.bidx.toNat + 1) := by
          rw [BlockStore.onesBefore_succ_of_read hread, BlockStore.onesBefore_write _ _ (Nat.le_refl _)]
      _ = (s.store.write s.bidx.toNat (closingRecord m w s)).onesBefore (s.bidx + 1#33).toNat := by rw [hbidx]
  · rw [if_neg hlive]
    exact h.no_fault (by simp [hv])

/-- A word that fills its group and is not the last. -/
theorem State.Inv.closed (hm : m.val = s.gcnt.toNat) (hw : s.wDone + 1#35 ≠ s.wTotal) (h4 : m.val + 1 = 4) :
    (closedGroup (m.val + 1) (takeWord m w s)).Inv := by
  obtain ⟨hlen, hlt, heq⟩ := h.phase_loading hv
  have hsucc := h.toNat_wDone_succ hv
  have hbidx := h.toNat_bidx_succ hv
  have hne := (h.last_iff hv).not.mp hw
  have hcount : wordsInBlock s.wTotal.toNat s.bidx.toNat = m.val + 1 := by
    unfold wordsInBlock
    omega
  refine h.groupClosed hv w (v := s.vstate) hcount (by simp [hv]) ?_
  simp only [State.PhaseInv, hv]
  refine ⟨hlen, (hsucc.trans_lt (by omega) : (s.wDone + 1#35).toNat < s.wTotal.toNat), ?_⟩
  show (s.wDone + 1#35).toNat = 4 * (s.bidx + 1#33).toNat + 0
  omega

/-- The last word. -/
theorem State.Inv.finished (hm : m.val = s.gcnt.toNat) (hw : s.wDone + 1#35 = s.wTotal) :
    { closedGroup (m.val + 1) (takeWord m w s) with vstate := .ready }.Inv := by
  obtain ⟨hlen, hlt, heq⟩ := h.phase_loading hv
  have hbidx := h.toNat_bidx_succ hv
  have hlast := (h.last_iff hv).mp hw
  have hcount : wordsInBlock s.wTotal.toNat s.bidx.toNat = m.val + 1 := by
    unfold wordsInBlock
    omega
  have hnb : s.bidx + 1#33 = s.nb := by
    have hwt := h.wTotal_eq
    refine BitVec.eq_of_toNat_eq ?_
    rw [hbidx, h.nb_eq, blocksOf]
    unfold wordsOf at hwt
    omega
  exact h.groupClosed hv w hcount (by simp) ⟨hnb, hw, rfl⟩

end

/-! ### Every step -/

theorem State.Inv.effect {s t : State} {i : Instr} (h : s.Inv) (ht : Effect s i t) : t.Inv := by
  cases ht with
  | inFaulted | error | answered => exact h.respond _ _
  | raised i code hc => exact h.raiseFault hc.code_ne _
  | cleared hv => exact (h.clearVector hv).respond _ _
  | begun n hv hn => exact (h.beginLoad hv hn).respond _ _
  | staged => exact (h.stage _).respond _ _
  | offsetStaged => exact (h.soff _).respond _ _
  | encoded => exact (h.encOut _).respond _ _
  | buffered w m hv hm hw h4 => exact (h.buffered hv w hm hw h4).respond _ _
  | closed w m hv hm hw h4 => exact (h.closed hv w hm hw h4).respond _ _
  | finished w m hv hm hw => exact (h.finished hv w hm hw).respond _ _

/-- Settles O56: the invariant does not speak of what the readers and the encoder write, and CLEAR, LOAD_BEGIN,
LOAD_WORD and a fault each keep it. -/
theorem everyStepKeepsTheInvariant : Obligations.EveryStepKeepsTheInvariant := by
  intro s t h hstep
  obtain ⟨-, rfl⟩ | ⟨cutOff, rest, -, rfl⟩ | ⟨r, rest, why, -, -, ⟨-, rfl⟩ | ⟨-, rfl⟩⟩ | ⟨r, rest, i, -, -, hexec⟩ :=
    step_next hstep
  · exact h.idleStep
  · exact h.takeReset rest
  · exact (h.taking rest).respond _ _
  · exact (h.taking rest).raiseFault (by decide) _
  · exact (h.taking rest).effect (exec_effect hexec)

end Sys2Proof.Machine
end

section
/-! SUPPORT. Proofs of the statements about single commands: READ_ENC (41_block_encoder.md R80), CLEAR and LOAD_WORD
(42_vector_load.md R81, R83), and the queries (43_query.md R89 to R92). -/

namespace Sys2Proof.Machine

/-! ### Other words of an OPC -/

/-- It is enough that R60 refuses the F values that are not legal. -/
theorem otherWordsIllegal_of_fieldOutside {opc : BitVec 8} {legalF : FField → Bool}
    (h : ∀ f, legalF f = false → FieldOutside opc.toNat f.toNat) : OtherWordsIllegal opc legalF :=
  otherWordsIllegal_of_decode fun r _ ho hf => exists_decode_eq_illegal (.inr (.inr (ho ▸ h r.cmd.f hf)))

theorem clear_otherWordsIllegal : OtherWordsIllegal 0x01#8 (· == 0#3) :=
  otherWordsIllegal_of_fieldOutside (by unfold FieldOutside; decide)

theorem loadWord_otherWordsIllegal : OtherWordsIllegal 0x03#8 (· == 0#3) :=
  otherWordsIllegal_of_fieldOutside (by unfold FieldOutside; decide)

theorem readEnc_otherWordsIllegal : OtherWordsIllegal 0x14#8 (fun f => decide (f.toNat ≤ 4)) :=
  otherWordsIllegal_of_fieldOutside (by unfold FieldOutside; decide)

theorem length_otherWordsIllegal : OtherWordsIllegal 0x20#8 (· == 0#3) :=
  otherWordsIllegal_of_fieldOutside (by unfold FieldOutside; decide)

theorem access_otherWordsIllegal : OtherWordsIllegal 0x21#8 (· == 0#3) :=
  otherWordsIllegal_of_fieldOutside (by unfold FieldOutside; decide)

theorem rank1_otherWordsIllegal : OtherWordsIllegal 0x22#8 (· == 0#3) :=
  otherWordsIllegal_of_fieldOutside (by unfold FieldOutside; decide)

theorem readBlock_otherWordsIllegal : OtherWordsIllegal 0x23#8 (fun f => decide (f.toNat ≤ 4)) :=
  otherWordsIllegal_of_fieldOutside (by unfold FieldOutside; decide)

/-! ### READ_ENC and CLEAR -/

theorem exec_readEnc_of_ne_faulted {s : State} {k : FField} (hv : s.vstate ≠ .faulted) (hk : k.toNat ≤ 4) :
    exec (.readEnc k) s = .next (s.answering .ok (s.encOut.chunk k.toNat)) :=
  serve_of_legal _ hv (decide_eq_true hk) (by simp [legalIn, hv])

/-- Settles O25: outside FAULTED a legal k is served. -/
theorem readEncReturnsAChunk : Obligations.ReadEncReturnsAChunk :=
  ⟨commandWord_eq_or 0x14#8, readEnc_otherWordsIllegal, fun _ => faultsInFaulted_of_ne_status (by simp),
    fun _ _ hv hk => exec_readEnc_of_ne_faulted hv hk⟩

theorem exec_clear_of_ne_faulted {s : State} (hv : s.vstate ≠ .faulted) :
    exec .clear s = .next ((clearVector s).answering .ok 0#64) :=
  serve_of_legal _ hv rfl (by simp [legalIn, hv])

/-- In EMPTY the registers that CLEAR sets hold their values already (10_state.md R36). -/
theorem State.Inv.clearVector_eq {s : State} (h : s.Inv) (hv : s.vstate = .empty) : Machine.clearVector s = s := by
  obtain ⟨hlen, hnb, hwt, hwd, hb, hr, hg⟩ := h.phase_empty hv
  cases s
  simp_all [Machine.clearVector]

/-- Settles O26: CLEAR writes the vector registers, which in EMPTY changes nothing. -/
theorem clearEmptiesTheVector : Obligations.ClearEmptiesTheVector := by
  refine ⟨rfl, clear_otherWordsIllegal, faultsInFaulted_of_ne_status (by simp), fun _ => exec_clear_of_ne_faulted,
    fun s h hv => ?_⟩
  rw [exec_clear_of_ne_faulted (by simp [hv]), h.clearVector_eq hv]

/-! ### LOAD_WORD -/

theorem encode_loadWord (w : Word) : encode (.loadWord w) = { cmd := 0x0300#16, arg := w } :=
  congrArg (Request.mk · w) (commandWord_eq_or 0x03#8 0#3)

theorem exec_loadWord_of_loading {s : State} {m : Fin 4} (hv : s.vstate = .loading) (hm : m.val = s.gcnt.toNat)
    (w : Word) : exec (.loadWord w) s = afterWord m (takeWord m w s) := by
  have hlt : s.gcnt.toNat < 4 := hm ▸ m.isLt
  have hslot : (⟨s.gcnt.toNat, hlt⟩ : Fin 4) = m := Fin.ext hm.symm
  refine (serve_of_legal _ (by simp [hv]) rfl (by simp [legalIn, hv])).trans ((dif_pos hlt).trans ?_)
  rw [hslot]

theorem exec_loadWord_of_room {s : State} {m : Fin 4} (hv : s.vstate = .loading) (hm : m.val = s.gcnt.toNat) (w : Word)
    (hw : s.wDone + 1#35 ≠ s.wTotal) (h4 : m.val + 1 ≠ 4) :
    exec (.loadWord w) s =
      .next (({ takeWord m w s with gcnt := BitVec.ofNat 3 (m.val + 1) } : State).answering .ok 0#64) := by
  rw [exec_loadWord_of_loading hv hm, afterWord_eq]
  exact (if_neg hw).trans (if_neg h4)

theorem State.Inv.exec_loadWord_of_closing {s : State} {m : Fin 4} (h : s.Inv) (hv : s.vstate = .loading)
    (hm : m.val = s.gcnt.toNat) (w : Word) (hc : m.val + 1 = 4 ∨ s.wDone + 1#35 = s.wTotal) :
    exec (.loadWord w) s =
      .next (({ closedGroup (m.val + 1) (takeWord m w s) with
        vstate := if s.wDone + 1#35 = s.wTotal then .ready else .loading } : State).answering .ok 0#64) := by
  rw [exec_loadWord_of_loading hv hm, afterWord_eq, takeWord_wDone, takeWord_wTotal, takeWord_bidx, takeWord_cfg]
  have hb := h.bidx_lt_maxBlocks hv
  by_cases hw : s.wDone + 1#35 = s.wTotal
  · rw [if_pos hw, if_pos hw, if_pos hb]
    rfl
  · rw [if_neg hw, if_neg hw, if_pos (hc.resolve_right hw), if_pos hb, ← hv]
    rfl

theorem BlockRecord.ones_eq_sum (r : BlockRecord) :
    r.ones = ((List.finRange 4).map fun k => popcnt (r.payload.get k)).sum := by
  have hall : List.finRange 4 = [0, 1, 2, 3] := by decide
  simp [hall, BlockRecord.ones, Quad.get, add_assoc]

/-- The popcount of a closing record is that of the m + 1 words of its group. -/
theorem ones_closingRecord (m : Fin 4) (w : Word) (s : State) :
    (closingRecord m w s).ones =
      ((List.finRange 4).map fun k => if k.val ≤ m.val then popcnt ((s.gbuf.set m w).get k) else 0).sum := by
  have hword (k : Fin 4) : popcnt ((closingRecord m w s).payload.get k) =
      if k.val ≤ m.val then popcnt ((s.gbuf.set m w).get k) else 0 := by
    rw [closingRecord, makeBlock_payload, padded_get, apply_ite popcnt, popcnt_zero]
    simp only [Nat.lt_succ_iff]
  simp only [← hword]
  exact (closingRecord m w s).ones_eq_sum

/-- Settles O28: room is left, or the group closes; under the invariant no register overflows. -/
theorem loadWordConsumesAWord : Obligations.LoadWordConsumesAWord := by
  refine ⟨encode_loadWord, loadWord_otherWordsIllegal, fun _ => faultsInFaulted_of_ne_status (by simp),
    fun s w hv => ?_, fun s w m gbuf wDone h hv hm hgbuf hwd => ?_⟩
  · obtain hv | hv := hv
    · exact serve_of_notLegal _ (by simp [hv]) rfl (by simp [legalIn, hv])
    · exact serve_of_notLegal _ (by simp [hv]) rfl (by simp [legalIn, hv])
  · subst hgbuf
    obtain rfl : wDone = s.wDone + 1#35 := BitVec.eq_of_toNat_eq (hwd.trans (h.toNat_wDone_succ hv).symm)
    refine ⟨fun h4 hw => ⟨BitVec.ofNat 3 (m.val + 1), toNat_ofNat_gcnt m,
      exec_loadWord_of_room hv hm.symm w hw (by omega)⟩, fun hc => ?_⟩
    refine ⟨s.running.extractLsb' 0 40, (closedGroup (m.val + 1) (takeWord m w s)).running, s.bidx + 1#33,
      h.toNat_offset hv, ?_, h.toNat_bidx_succ hv, h.exec_loadWord_of_closing hv hm.symm w hc⟩
    rw [h.toNat_closedGroup_running hv, ones_closingRecord]

/-! ### Queries -/

section
variable {s : State} {i : Instr} (hi : ∀ v, legalIn i v = (v == .empty || v == .ready))
include hi

theorem serve_query_of_loading (body : Result) (hwf : i.wellFormed = true) (hv : s.vstate = .loading) :
    serve i none s body = .next (s.answering .errState 0#64) :=
  serve_of_notLegal body (by simp [hv]) hwf (by simp [hi, hv])

theorem serve_query_of_legal (body : Result) (hwf : i.wellFormed = true) (hv : s.vstate = .empty ∨ s.vstate = .ready) :
    serve i none s body = body := by
  obtain hv | hv := hv
  · exact serve_of_legal body (by simp [hv]) hwf (by simp [hi, hv])
  · exact serve_of_legal body (by simp [hv]) hwf (by simp [hi, hv])

end

theorem exec_length_of_query {s : State} (hv : s.vstate = .empty ∨ s.vstate = .ready) :
    exec .length s = .next (s.answering .ok (s.len.setWidth 64)) :=
  serve_query_of_legal (fun _ => rfl) _ rfl hv

/-- Settles O35: LEN is answered in EMPTY and READY only. -/
theorem lengthAnswersLen : Obligations.LengthAnswersLen :=
  ⟨rfl, length_otherWordsIllegal, faultsInFaulted_of_ne_status (by simp), fun _ =>
    ⟨serve_query_of_loading (fun _ => rfl) _ rfl, exec_length_of_query⟩⟩

theorem bitResult_eq_ite (b : Bool) : bitResult b = if b then 1#64 else 0#64 := by
  cases b <;> rfl

section
variable {s : State} {a : Word} (hv : s.vstate = .empty ∨ s.vstate = .ready)
include hv

theorem exec_access_of_outside (h : a.toInt < 0 ∨ (s.len.toNat : Int) ≤ a.toInt) :
    exec (.access a) s = .next (s.answering .errRange 0#64) :=
  (serve_query_of_legal (fun _ => rfl) _ rfl hv).trans (if_pos h)

theorem exec_access_of_read {i : Nat} {rec : BlockRecord} (ha : a.toInt = i) (hi : i < s.len.toNat)
    (hmax : i / 256 < s.cfg.maxBlocks) (hread : s.store.read (i / 256) = some rec) :
    exec (.access a) s = .next (s.answering .ok (if rec.bit (i % 256) then 1#64 else 0#64)) := by
  refine (serve_query_of_legal (fun _ => rfl) _ rfl hv).trans ((if_neg (by rw [signed64]; omega)).trans ?_)
  rw [signed64, ha, Int.toNat_natCast, blockIndex, memRead_of_read _ hmax hread, bitResult_eq_ite]
  rfl

theorem exec_rank1_of_negative (h : a.toInt < 0) : exec (.rank1 a) s = .next (s.answering .ok 0#64) :=
  (serve_query_of_legal (fun _ => rfl) _ rfl hv).trans (if_pos h)

theorem exec_rank1_of_gt (h : (s.len.toNat : Int) < a.toInt) :
    exec (.rank1 a) s = .next (s.answering .errRange 0#64) :=
  (serve_query_of_legal (fun _ => rfl) _ rfl hv).trans
    ((if_neg (by rw [signed64]; omega)).trans (if_pos h))

theorem exec_rank1_of_nb {i : Nat} (ha : a.toInt = i) (hi : i ≤ s.len.toNat) (hnb : i / 256 = s.nb.toNat) :
    exec (.rank1 a) s = .next (s.answering .ok (s.running.setWidth 64)) := by
  refine (serve_query_of_legal (fun _ => rfl) _ rfl hv).trans
    ((if_neg (by rw [signed64]; omega)).trans ((if_neg (by rw [signed64]; omega)).trans ?_))
  rw [signed64, ha, Int.toNat_natCast, blockIndex, if_pos hnb]
  rfl

theorem exec_rank1_of_read {i : Nat} {rec : BlockRecord} (ha : a.toInt = i) (hi : i ≤ s.len.toNat)
    (hnb : i / 256 ≠ s.nb.toNat) (hmax : i / 256 < s.cfg.maxBlocks) (hread : s.store.read (i / 256) = some rec) :
    exec (.rank1 a) s = .next (s.answering .ok (BitVec.ofNat 64 (rankWithin s.cfg.impl rec i))) := by
  refine (serve_query_of_legal (fun _ => rfl) _ rfl hv).trans
    ((if_neg (by rw [signed64]; omega)).trans ((if_neg (by rw [signed64]; omega)).trans ?_))
  rw [signed64, ha, Int.toNat_natCast, blockIndex, if_neg hnb, memRead_of_read _ hmax hread]
  rfl

end

/-- Settles O36: the range check, then the bit of the record. -/
theorem accessAnswersTheBit : Obligations.AccessAnswersTheBit := by
  refine ⟨fun a => congrArg (Request.mk · a) (commandWord_eq_or 0x21#8 0#3), access_otherWordsIllegal,
    fun _ => faultsInFaulted_of_ne_status (by simp), fun s a => ⟨serve_query_of_loading (fun _ => rfl) _ rfl, fun hv =>
      ⟨exec_access_of_outside hv, fun i rec m ha hi hmax hread hm => ?_⟩⟩⟩
  rw [exec_access_of_read hv ha hi hmax hread, rec.bit_eq (m := m) (by omega), Nat.mod_mod_of_dvd _ (by decide)]

/-- Settles O37: the range checks, then RUNNING for block NB and else one record's counts. -/
theorem rank1AnswersTheCount : Obligations.Rank1AnswersTheCount := by
  refine ⟨fun a => congrArg (Request.mk · a) (commandWord_eq_or 0x22#8 0#3), rank1_otherWordsIllegal,
    fun _ => faultsInFaulted_of_ne_status (by simp), fun s a => ⟨serve_query_of_loading (fun _ => rfl) _ rfl, fun hv =>
      ⟨exec_rank1_of_negative hv, exec_rank1_of_gt hv, fun i ha hi => ⟨exec_rank1_of_nb hv ha hi,
        fun rec m before hnb hmax hread hm h0 h1 h2 h3 => ?_⟩⟩⟩⟩
  have hbefore : rec.countBefore m = before := by
    fin_cases m
    · exact (h0 rfl).symm
    · exact (h1 rfl).symm
    · exact (h2 rfl).symm
    · exact (h3 rfl).symm
  rw [exec_rank1_of_read hv ha hi hnb hmax hread, rankWithin, wordIndex_eq hm, hbefore, popcount_eq_popcnt, bitOffset]

/-- Settles O38: the range check, then a chunk of the record. -/
theorem readBlockReturnsAChunk : Obligations.ReadBlockReturnsAChunk := by
  refine ⟨fun k q => congrArg (Request.mk · q) (commandWord_eq_or 0x23#8 k), readBlock_otherWordsIllegal,
    fun _ _ => faultsInFaulted_of_ne_status (by simp), fun s k q hk =>
      ⟨serve_query_of_loading (fun _ => rfl) _ (decide_eq_true hk), fun hv => ?_⟩⟩
  have hserve := serve_query_of_legal (i := .readBlock k q) (fun _ => rfl)
    (if s.nb.toNat ≤ q.toNat then recoverable .errRange s
      else memRead s q.toNat fun rec => done (rec.chunk k.toNat) s) (decide_eq_true hk) hv
  refine ⟨fun hq => hserve.trans (if_pos hq), fun rec hq hmax hread => ?_⟩
  exact hserve.trans ((if_neg (Nat.not_le.mpr hq)).trans (memRead_of_read _ hmax hread))

end Sys2Proof.Machine
end

section
/-! SUPPORT. Proofs of the statements about what the commands write and leave (10_state.md R19, R22, R29, R30, R35,
20_memory.md R46, R50, R52, 60_exceptions.md R100): each is a case analysis of `Effect`. -/

namespace Sys2Proof.Machine

/-! ### What every command leaves -/

section
variable {s t : State} {i : Instr} (h : Effect s i t)
include h

theorem Effect.cfg_eq : t.cfg = s.cfg := by
  cases h <;> rfl

theorem Effect.inbox_eq : t.inbox = s.inbox := by
  cases h <;> rfl

/-- 20_memory.md R44: the block store is left, or LOAD_WORD writes the record at BIDX and advances BIDX. -/
theorem Effect.store_eq :
    t.store = s.store ∨
      ∃ w rec, i = .loadWord w ∧ s.vstate = .loading ∧ t.bidx = s.bidx + 1#33 ∧
        t.store = s.store.write s.bidx.toNat rec := by
  cases h with
  | closed w m hv | finished w m hv => exact .inr ⟨w, closingRecord m w s, rfl, hv, rfl, rfl⟩
  | _ => exact .inl rfl

theorem Effect.store_wf (hs : s.store.Wf) : t.store.Wf := by
  obtain hstore | ⟨w, rec, -, -, -, hstore⟩ := h.store_eq
  · rwa [hstore]
  · rw [hstore]
    exact BlockStore.write_wf hs _ _

theorem Effect.sizes_eq (hc : i ≠ .clear) (hn : ∀ n, i ≠ .loadBegin n) :
    t.len = s.len ∧ t.nb = s.nb ∧ t.wTotal = s.wTotal := by
  cases h with
  | cleared => exact absurd rfl hc
  | begun n => exact absurd rfl (hn n)
  | _ => exact ⟨rfl, rfl, rfl⟩

theorem Effect.gbuf_eq (hw : ∀ w, i ≠ .loadWord w) : t.gbuf = s.gbuf := by
  cases h with
  | buffered w | closed w | finished w => exact absurd rfl (hw w)
  | _ => rfl

theorem Effect.staging_eq (hj : ∀ j w, i ≠ .stageWord j w) (ho : ∀ off, i ≠ .stageOffset off)
    (hc : ∀ count, i ≠ .encode count) : t.stage = s.stage ∧ t.soff = s.soff ∧ t.encOut = s.encOut := by
  cases h with
  | staged j w => exact absurd rfl (hj j w)
  | offsetStaged off => exact absurd rfl (ho off)
  | encoded count => exact absurd rfl (hc count)
  | _ => exact ⟨rfl, rfl, rfl⟩

end

/-- Settles O57: no step writes the build's parameters, and the store is left, emptied, or written once. -/
theorem everyStepKeepsTheStoreCanonical : Obligations.EveryStepKeepsTheStoreCanonical := by
  intro s t hstep
  obtain ⟨-, rfl⟩ | ⟨cutOff, rest, -, rfl⟩ | ⟨r, rest, why, -, -, ⟨-, rfl⟩ | ⟨-, rfl⟩⟩ | ⟨r, rest, i, -, -, hexec⟩ :=
    step_next hstep
  · exact ⟨id, rfl⟩
  · exact ⟨fun _ => List.Pairwise.nil, rfl⟩
  · exact ⟨id, rfl⟩
  · exact ⟨id, rfl⟩
  · exact ⟨(exec_effect hexec).store_wf, (exec_effect hexec).cfg_eq⟩

/-- Settles O29: LOAD_WORD writes at BIDX only, and then BIDX changes. -/
theorem onlyLoadWordWritesTheBlockStore : Obligations.OnlyLoadWordWritesTheBlockStore := by
  intro i s t hexec
  obtain hstore | ⟨w, rec, rfl, -, hbidx, hstore⟩ := (exec_effect hexec).store_eq
  · simp [hstore]
  · have hne : t.bidx ≠ s.bidx := by rw [hbidx]; bv_omega
    rw [hstore]
    exact ⟨fun hi => absurd rfl (hi w), fun q hq => BlockStore.read_write_other _ _ hq, fun heq => absurd heq hne⟩

/-- Settles O30: each clause is the frame of the commands it leaves out. -/
theorem loadCommandsFrame : Obligations.LoadCommandsFrame := by
  intro i s t hexec
  have h := exec_effect hexec
  refine ⟨fun ⟨hc, hn⟩ => h.sizes_eq hc hn, fun hi => h.staging_eq ?_ ?_ ?_, h.gbuf_eq, h.cfg_eq, h.inbox_eq⟩
  all_goals obtain rfl | ⟨n, rfl⟩ | ⟨w, rfl⟩ := hi <;> simp

/-- Settles O54: only the command named writes the register, and it writes no other. -/
theorem stagingWrittenOnlyByStagingCommands : Obligations.StagingWrittenOnlyByStagingCommands := by
  intro i s t hexec
  refine ⟨fun hne => ?_, fun hne => ?_, fun hne => ?_⟩
  · cases exec_effect hexec with
    | staged j w => exact ⟨⟨j, w, rfl⟩, rfl⟩
    | _ => exact absurd rfl hne
  · cases exec_effect hexec with
    | offsetStaged off => exact ⟨⟨off, rfl⟩, rfl⟩
    | _ => exact absurd rfl hne
  · cases exec_effect hexec with
    | encoded count => exact ⟨⟨count, rfl⟩, rfl⟩
    | _ => exact absurd rfl hne

/-- Settles O53: in READY, LOAD_BEGIN faults and LOAD_WORD is refused, so only CLEAR writes the vector. -/
theorem readyVectorIsImmutable : Obligations.ReadyVectorIsImmutable := by
  intro i s t hv hc hexec
  cases exec_effect hexec with
  | cleared => exact absurd rfl hc
  | begun n hempty => simp [hv] at hempty
  | buffered w m hload | closed w m hload | finished w m hload => simp [hv] at hload
  | raised => exact ⟨rfl, rfl, rfl, fun _ => rfl, .inr rfl⟩
  | _ => exact ⟨rfl, rfl, rfl, fun _ => rfl, .inl hv⟩

/-! ### Recoverable errors (60_exceptions.md R100) -/

theorem Effect.errorCondition {s t : State} {i : Instr} {resp : Response} (h : Effect s i t)
    (hr : t.response = some resp) (he : resp.rsp.recoverableError = true) :
    ErrorCondition s i resp.rsp ∧ t = s.answering resp.rsp 0#64 := by
  cases h with
  | error i rsp hv hc =>
    cases hr
    exact ⟨hc, rfl⟩
  | _ =>
    cases hr
    cases he

/-- Settles O46: an effect that answers a recoverable error is the error's, and its condition is one of the table's. -/
theorem recoverableErrorsChangeNothing : Obligations.RecoverableErrorsChangeNothing := by
  intro i s t ⟨rsp, v⟩ hexec hr
  have h := (exec_effect hexec).errorCondition hr
  refine ⟨fun he => (h he).2, ?_, ?_, ?_⟩
  · rintro rfl
    cases (h rfl).1 with
    | alloc n hn => exact ⟨n, rfl, hn⟩
  · rintro rfl
    cases (h rfl).1 with
    | offset off ho => exact .inl ⟨off, rfl, ho⟩
    | access a ha => exact .inr (.inl ⟨a, rfl, ha⟩)
    | rank1 a ha => exact .inr (.inr (.inl ⟨a, rfl, ha⟩))
    | readBlock k q hq => exact .inr (.inr (.inr ⟨k, q, rfl, hq⟩))
  · rintro rfl
    cases (h rfl).1 with
    | word w hv => exact .inl ⟨⟨w, rfl⟩, hv⟩
    | length hv => exact .inr ⟨.inl rfl, hv⟩
    | accessEarly a hv => exact .inr ⟨.inr (.inl ⟨a, rfl⟩), hv⟩
    | rank1Early a hv => exact .inr ⟨.inr (.inr (.inl ⟨a, rfl⟩)), hv⟩
    | readBlockEarly k q hv => exact .inr ⟨.inr (.inr (.inr ⟨k, q, rfl⟩)), hv⟩

/-! ### Readers and repeated writers (20_memory.md R46, R52) -/

/-- No command reads the response port (10_state.md R21). -/
theorem exec_response (i : Instr) (s : State) (resp : Option Response) :
    exec i { s with response := resp } = exec i s := by
  cases i with
  | loadWord w =>
    simp only [exec, execLoadWord, afterWord_eq]
    rfl
  | _ => rfl

/-- A reader with a legal field writes the response port only. -/
theorem Effect.eq_response_of_readsOnly {s t : State} {i : Instr} (h : Effect s i t) (hi : readsOnly i = true)
    (hwf : i.wellFormed = true) : t = { s with response := t.response } := by
  cases h with
  | raised i code hc =>
    cases hc with
    | illFormed _ hill => simp [hwf] at hill
    | populated | badCount => cases hi
  | inFaulted | error | answered => rfl
  | _ => cases hi

theorem exec_eq_of_readsOnly {i : Instr} {s t : State} (hi : readsOnly i = true) (hwf : i.wellFormed = true)
    (hexec : exec i s = .next t) (j : Instr) : exec j t = exec j s := by
  rw [(exec_effect hexec).eq_response_of_readsOnly hi hwf, exec_response]

/-- Settles O50: a reader leaves all that a later command reads. -/
theorem queriesInterleaveFreely : Obligations.QueriesInterleaveFreely :=
  fun _ j _ _ hi hwf hexec => exec_eq_of_readsOnly hi hwf hexec j

theorem Quad.set_set_same (q : Quad) (m : Fin 4) (w : Word) : (q.set m w).set m w = q.set m w := by
  fin_cases m <;> rfl

/-- A command that only answered, as in FAULTED or with a recoverable error, answers so again. -/
theorem exec_repeats_of_answering {i : Instr} {s t : State} {rsp : Rsp} {v : Word} (hexec : exec i s = .next t)
    (ht : exec i s = .next (s.answering rsp v)) : exec i t = .next t := by
  cases hexec.symm.trans ht
  exact (exec_response i s _).trans ht

/-- A command that raised a fault is answered in FAULTED with the same response (60_exceptions.md R103). -/
theorem exec_repeats_of_faulting {i : Instr} {s t : State} {code : FaultCode} {cmd : CmdWord} (hi : i ≠ .status)
    (hexec : exec i s = .next t) (ht : exec i s = .next (s.faulting code cmd)) : exec i t = .next t := by
  cases hexec.symm.trans ht
  exact faultsInFaulted_of_ne_status hi _ rfl

section
variable {s t : State}

theorem exec_clear_repeats (hv : s.vstate ≠ .faulted) (hexec : exec .clear s = .next t) : exec .clear t = .next t := by
  cases hexec.symm.trans (exec_clear_of_ne_faulted hv)
  exact exec_clear_of_ne_faulted (by simp [State.answering])

theorem exec_stageWord_repeats {j : FField} {w : Word} (hv : s.vstate ≠ .faulted)
    (hexec : exec (.stageWord j w) s = .next t) : exec (.stageWord j w) t = .next t := by
  by_cases hj : j.toNat < 4
  · have hslot : j.toNat = (⟨j.toNat, hj⟩ : Fin 4).val := rfl
    cases hexec.symm.trans (exec_stageWord_of_ne_faulted w hv hslot)
    have htwice := exec_stageWord_of_ne_faulted
      (s := ({ s with stage := s.stage.set ⟨j.toNat, hj⟩ w } : State).answering .ok 0#64) w hv hslot
    simpa only [State.answering, Quad.set_set_same] using htwice
  · have hwf : (Instr.stageWord j w).wellFormed = false := decide_eq_false (by omega)
    have hill : exec (.stageWord j w) s = .next (s.faulting .illegalCommand (encode (.stageWord j w)).cmd) :=
      serve_of_illFormed none _ hv hwf
    exact exec_repeats_of_faulting (by simp) hexec hill

theorem exec_stageOffset_repeats {off : Word} (hv : s.vstate ≠ .faulted) (hexec : exec (.stageOffset off) s = .next t) :
    exec (.stageOffset off) t = .next t := by
  by_cases ho : off.toNat < 2 ^ 40
  · cases hexec.symm.trans (exec_stageOffset_of_lt hv ho)
    exact exec_stageOffset_of_lt hv ho
  · exact exec_repeats_of_answering hexec (exec_stageOffset_of_le hv (Nat.not_lt.mp ho))

theorem exec_encode_repeats {count : FField} (hv : s.vstate ≠ .faulted) (hexec : exec (.encode count) s = .next t) :
    exec (.encode count) t = .next t := by
  by_cases hc : 1 ≤ count.toNat ∧ count.toNat ≤ 4
  · cases hexec.symm.trans (exec_encode_of_legal hv hc.1 hc.2)
    exact exec_encode_of_legal hv hc.1 hc.2
  · exact exec_repeats_of_faulting (by simp) hexec (exec_encode_of_illegal hv (by omega))

end

/-- A second LOAD_BEGIN faults, since the first left EMPTY. -/
theorem exists_loadBegin_twice_ne :
    ∃ (n : Word) (s t u : State), exec (.loadBegin n) s = .next t ∧ exec (.loadBegin n) t = .next u ∧ u ≠ t := by
  refine ⟨0#64, State.reset, _, _, rfl, rfl, fun h => ?_⟩
  cases congrArg State.vstate h

/-- A second LOAD_WORD takes a second word. -/
theorem exists_loadWord_twice_ne :
    ∃ (w : Word) (s t u : State), exec (.loadWord w) s = .next t ∧ exec (.loadWord w) t = .next u ∧ u ≠ t := by
  refine ⟨0#64, { State.reset with vstate := .loading, len := 256#41, nb := 1#33, wTotal := 4#35 }, _, _, rfl, rfl,
    fun h => ?_⟩
  exact absurd (congrArg State.gcnt h) (by decide)

/-- Settles O49: a reader is followed by itself as by any command; a writer writes the same values again; and a second
LOAD_BEGIN faults, a second LOAD_WORD takes a second word. -/
theorem readsChangeNothingAndWritersRepeat : Obligations.ReadsChangeNothingAndWritersRepeat := by
  refine ⟨fun i s t hi hwf hexec => ?_, fun i s t hi hexec => ?_,
    exists_loadBegin_twice_ne, exists_loadWord_twice_ne⟩
  · exact ⟨(exec_effect hexec).eq_response_of_readsOnly hi hwf, (exec_eq_of_readsOnly hi hwf hexec i).trans hexec⟩
  · by_cases hv : s.vstate = .faulted
    · have hne : i ≠ .status := by obtain rfl | ⟨j, w, rfl⟩ | ⟨off, rfl⟩ | ⟨count, rfl⟩ := hi <;> simp
      exact exec_repeats_of_answering hexec (faultsInFaulted_of_ne_status hne s hv)
    · obtain rfl | ⟨j, w, rfl⟩ | ⟨off, rfl⟩ | ⟨count, rfl⟩ := hi
      · exact exec_clear_repeats hv hexec
      · exact exec_stageWord_repeats hv hexec
      · exact exec_stageOffset_repeats hv hexec
      · exact exec_encode_repeats hv hexec

/-! ### The lifecycle and the fault record (10_state.md R22, R30) -/

theorem faultCode_bits_ne_zero {code : FaultCode} (h : code ≠ .none) : code.bits ≠ 0#4 := by
  cases code <;> simp_all [FaultCode.bits]

/-- Settles O51: of what a step can do, reset, CLEAR, LOAD_BEGIN, a last LOAD_WORD and a fault write VSTATE. -/
theorem lifecycleTransitions : Obligations.LifecycleTransitions := by
  refine ⟨⟨rfl, rfl, rfl, rfl⟩, fun s t hstep hne => ?_⟩
  obtain ⟨-, rfl⟩ | ⟨cutOff, rest, hin, rfl⟩ | ⟨r, rest, why, hin, -, ⟨-, rfl⟩ | ⟨hv, rfl⟩⟩ |
    ⟨r, rest, i, hin, hd, hexec⟩ := step_next hstep
  · exact absurd rfl hne
  · exact .inl ⟨cutOff, rest, hin, rfl⟩
  · exact absurd rfl hne
  · exact .inr ⟨r, rest, hin, .inr (.inr (.inr ⟨hv, rfl, rfl⟩))⟩
  · refine .inr ⟨r, rest, hin, ?_⟩
    cases exec_effect hexec with
    | raised i code hc hv => exact .inr (.inr (.inr ⟨hv, rfl, rfl⟩))
    | cleared hv =>
      refine .inl ⟨hd, ?_, rfl⟩
      cases hs : s.vstate <;> simp_all [State.taking]
    | begun n hv => exact .inr (.inl ⟨n, hd, hv, rfl⟩)
    | finished w m hv hm hw => exact .inr (.inr (.inl ⟨w, hd, hv, rfl, hw⟩))
    | _ => exact absurd rfl hne

/-- Settles O52: the fault record is written by reset, by a request that does not decode and by a command that faults;
the last writes its own word, which is the request's. -/
theorem faultRecordWrittenOnlyOnEntry : Obligations.FaultRecordWrittenOnlyOnEntry := by
  intro s t hstep hne
  obtain ⟨-, rfl⟩ | ⟨cutOff, rest, hin, rfl⟩ | ⟨r, rest, why, hin, -, ⟨-, rfl⟩ | ⟨hv, rfl⟩⟩ |
    ⟨r, rest, i, hin, hd, hexec⟩ := step_next hstep
  · simp at hne
  · exact .inl ⟨cutOff, rest, hin, rfl, rfl⟩
  · simp [State.taking] at hne
  · exact .inr ⟨r, rest, hin, hv, rfl, faultCode_bits_ne_zero (by simp), rfl⟩
  · cases exec_effect hexec with
    | raised i code hc hv =>
      exact .inr ⟨r, rest, hin, hv, rfl, faultCode_bits_ne_zero hc.code_ne, cmd_of_decode hd⟩
    | _ => exact absurd hne (by rintro (h | h) <;> exact h rfl)

end Sys2Proof.Machine
end

section
/-! SUPPORT. Proofs of the statements that rest on the invariant: every request is answered (60_exceptions.md R98), how
sequences of commands end (60_exceptions.md R104, 70_reset_and_hazards.md R115), and the order of the large counts
(10_state.md R37). -/

namespace Sys2Proof.Machine

/-! ### Stored records -/

section
variable {s : State} (h : s.Inv)
include h

/-- In EMPTY and READY all NB records are written (10_state.md R36). -/
theorem State.Inv.bidx_eq_nb (hv : s.vstate = .empty ∨ s.vstate = .ready) : s.bidx = s.nb := by
  obtain hv | hv := hv
  · obtain ⟨-, hnb, -, -, hb, -⟩ := h.phase_empty hv
    rw [hnb, hb]
  · exact (h.phase_ready hv).1

theorem State.Inv.exists_read (hv : s.vstate = .empty ∨ s.vstate = .ready) {q : Nat} (hq : q < s.nb.toNat) :
    q < s.cfg.maxBlocks ∧
      ∃ r, s.store.read q = some r ∧ r.Good (wordsInBlock s.wTotal.toNat q) (s.store.onesBefore q) :=
  ⟨hq.trans_le h.nb_le, h.records_good q (by rwa [h.bidx_eq_nb hv])⟩

theorem State.Inv.blockIndex_lt_nb {i : Nat} (hi : i < s.len.toNat) : blockIndex i < s.nb.toNat := by
  rw [h.nb_eq, blockIndex, blocksOf]
  omega

/-- The position LEN stands in block NB only if the last block is full (43_query.md R91). -/
theorem State.Inv.blockIndex_lt_nb_of_ne {i : Nat} (hi : i ≤ s.len.toNat) (hne : blockIndex i ≠ s.nb.toNat) :
    blockIndex i < s.nb.toNat := by
  rw [h.nb_eq, blocksOf] at *
  unfold blockIndex at *
  omega

end

/-- Settles O58: the large counts are the popcounts of the blocks before, which only grow. -/
theorem largeCountsDoNotDecrease : Obligations.LargeCountsDoNotDecrease := by
  intro s p q h hv hpq hq
  obtain ⟨-, a, ha, hgoodA⟩ := h.exists_read (.inr hv) (hpq.trans_lt hq)
  obtain ⟨-, b, hb, hgoodB⟩ := h.exists_read (.inr hv) hq
  refine ⟨a, b, ha, hb, ?_⟩
  rw [hgoodA.large_eq, hgoodB.large_eq]
  exact s.store.onesBefore_mono hpq

/-! ### No step stops -/

/-- A served command goes on when its body does, where the body is reached. -/
theorem exists_serve_eq_next {i : Instr} {c : Option FaultCode} {s : State} {body : Result}
    (hb : s.vstate ≠ .faulted → c = none → legalIn i s.vstate = true → ∃ t, body = .next t) :
    ∃ t, serve i c s body = .next t := by
  by_cases hv : s.vstate = .faulted
  · exact ⟨_, serve_of_faulted i c body hv⟩
  by_cases hwf : i.wellFormed = true
  · cases c with
    | some code => exact ⟨_, serve_of_contract code body hv hwf⟩
    | none =>
      by_cases hl : legalIn i s.vstate = true
      · obtain ⟨t, ht⟩ := hb hv rfl hl
        exact ⟨t, (serve_of_legal body hv hwf hl).trans ht⟩
      · exact ⟨_, serve_of_notLegal body hv hwf (Bool.eq_false_iff.mpr hl)⟩
  · exact ⟨_, serve_of_illFormed c body hv (Bool.eq_false_iff.mpr hwf)⟩

theorem exists_serve_done_eq_next (i : Instr) (c : Option FaultCode) {s u : State} {v : Word} :
    ∃ t, serve i c s (done v u) = .next t :=
  exists_serve_eq_next fun _ _ _ => ⟨_, rfl⟩

theorem query_of_legal {v : VState} (h : (v == .empty || v == .ready) = true) : v = .empty ∨ v = .ready := by
  simpa using h

section
variable {s : State} (h : s.Inv)
include h

theorem State.Inv.exists_memRead_eq_next (hv : s.vstate = .empty ∨ s.vstate = .ready) {q : Nat} (hq : q < s.nb.toNat)
    (f : BlockRecord → Word) : ∃ t, memRead s q (fun rec => done (f rec) s) = .next t := by
  obtain ⟨hmax, rec, hread, -⟩ := h.exists_read hv hq
  exact ⟨_, memRead_of_read _ hmax hread⟩

/-- Under the invariant every record a query reads is stored, and LOAD_WORD has a place for its word and its record. -/
theorem State.Inv.exists_exec_eq_next (i : Instr) : ∃ t, exec i s = .next t := by
  cases i with
  | status => exact ⟨_, rfl⟩
  | loadBegin n =>
    unfold exec execLoadBegin
    refine exists_serve_eq_next fun _ _ _ => ?_
    split
    · exact ⟨_, rfl⟩
    · exact ⟨_, rfl⟩
  | stageOffset off =>
    unfold exec execStageOffset
    refine exists_serve_eq_next fun _ _ _ => ?_
    split
    · exact ⟨_, rfl⟩
    · exact ⟨_, rfl⟩
  | loadWord w =>
    unfold exec execLoadWord
    refine exists_serve_eq_next fun _ _ hl => ?_
    have hv : s.vstate = .loading := by simpa [legalIn] using hl
    have hg : s.gcnt.toNat < 4 := Nat.lt_succ_of_le h.gcnt_le
    have hb : s.bidx.toNat < s.cfg.maxBlocks := h.bidx_lt_maxBlocks hv
    rw [dif_pos hg, afterWord_eq, takeWord_bidx, takeWord_cfg, if_pos hb, if_pos hb]
    split_ifs
    all_goals exact ⟨_, rfl⟩
  | access a =>
    unfold exec execAccess
    refine exists_serve_eq_next fun _ _ hl => ?_
    dsimp only
    split
    · exact ⟨_, rfl⟩
    · exact h.exists_memRead_eq_next (query_of_legal hl) (h.blockIndex_lt_nb (by omega)) _
  | rank1 a =>
    unfold exec execRank1
    refine exists_serve_eq_next fun _ _ hl => ?_
    dsimp only
    split
    · exact ⟨_, rfl⟩
    split
    · exact ⟨_, rfl⟩
    split
    next => exact ⟨_, rfl⟩
    next hne =>
      exact h.exists_memRead_eq_next (query_of_legal hl) (h.blockIndex_lt_nb_of_ne (by omega) hne) _
  | readBlock k q =>
    unfold exec execReadBlock
    refine exists_serve_eq_next fun _ _ hl => ?_
    split
    · exact ⟨_, rfl⟩
    · exact h.exists_memRead_eq_next (query_of_legal hl) (by omega) _
  | nop => exact exists_serve_done_eq_next .nop none
  | clear => exact exists_serve_done_eq_next .clear none
  | popcnt w => exact exists_serve_done_eq_next (.popcnt w) none
  | stageWord j w => exact exists_serve_done_eq_next (.stageWord j w) none
  | encode count => exact exists_serve_done_eq_next (.encode count) (encodeContract count)
  | readEnc k => exact exists_serve_done_eq_next (.readEnc k) none
  | length => exact exists_serve_done_eq_next .length none

theorem State.Inv.exists_step_eq_next : ∃ t, step s = .next t := by
  cases hin : s.inbox with
  | nil => exact ⟨_, step_of_empty hin⟩
  | cons a rest =>
    cases a with
    | reset cutOff => exact ⟨_, step_of_reset hin⟩
    | request r =>
      cases hd : decode r with
      | illegal why =>
        by_cases hv : s.vstate = .faulted
        · exact ⟨_, step_of_illegal_of_faulted hin hv hd⟩
        · exact ⟨_, step_of_illegal hin hv hd⟩
      | instr i =>
        obtain ⟨t, ht⟩ := (h.taking rest).exists_exec_eq_next i
        exact ⟨t, (step_of_instr hin hd).trans ht⟩

end

/-! ### Every request is answered (60_exceptions.md R98) -/

/-- A command answers in one of the three ways of R98. -/
theorem Effect.answers {s t : State} {i : Instr} (h : Effect s i t) :
    ∃ resp, t.response = some resp ∧ (resp.rsp ≠ .ok → resp.result = 0#64) ∧
      ((resp.rsp = .ok ∧ (s.vstate = .faulted → i = .status)) ∨
       (resp.rsp.recoverableError = true ∧ t = s.answering resp.rsp 0#64) ∨
       (resp.rsp = .fault ∧ t.vstate = .faulted)) := by
  cases h with
  | inFaulted i hi hv => exact ⟨_, rfl, fun _ => rfl, .inr (.inr ⟨rfl, hv⟩)⟩
  | raised i code hc hv => exact ⟨_, rfl, fun _ => rfl, .inr (.inr ⟨rfl, rfl⟩)⟩
  | error i rsp hv hc => exact ⟨_, rfl, fun _ => rfl, .inr (.inl ⟨by cases hc <;> rfl, rfl⟩)⟩
  | answered i v hi hv => exact ⟨_, rfl, fun hne => absurd rfl hne, .inl ⟨rfl, hv⟩⟩
  | begun n hv | buffered w m hv | closed w m hv | finished w m hv =>
    exact ⟨_, rfl, fun _ => rfl, .inl ⟨rfl, fun hf => by simp [hv] at hf⟩⟩
  | cleared hv | staged j w hv | offsetStaged off hv | encoded count hv =>
    exact ⟨_, rfl, fun _ => rfl, .inl ⟨rfl, fun hf => absurd hf hv⟩⟩

/-- Settles O47: under the invariant no step stops, and a step on a request has a command's effect or is served as
illegal. -/
theorem everyRequestIsAnswered : Obligations.EveryRequestIsAnswered := by
  refine ⟨⟨rfl, rfl, rfl, rfl, rfl⟩, fun s r rest h hin => ?_⟩
  cases hd : decode r with
  | illegal why =>
    by_cases hv : s.vstate = .faulted
    · exact ⟨_, _, step_of_illegal_of_faulted hin hv hd, rfl, fun _ => rfl, .inr (.inr ⟨rfl, hv⟩)⟩
    · exact ⟨_, _, step_of_illegal hin hv hd, rfl, fun _ => rfl, .inr (.inr ⟨rfl, rfl⟩)⟩
  | instr i =>
    obtain ⟨t, ht⟩ := (h.taking rest).exists_exec_eq_next i
    obtain ⟨resp, hresp, hzero, hways⟩ := (exec_effect ht).answers
    refine ⟨t, resp, (step_of_instr hin hd).trans ht, hresp, hzero, ?_⟩
    obtain ⟨hok, hf⟩ | herr | hfault := hways
    · exact .inl ⟨hok, fun hv => congrArg Decoded.instr (hf hv)⟩
    · exact .inr (.inl herr)
    · exact .inr (.inr hfault)

/-! ### How sequences end (60_exceptions.md R104, 70_reset_and_hazards.md R115) -/

theorem run_succ_eq_next {n : Nat} {s t : State} (h : Host.Core.run Sys2Proof.core (n + 1) s = .next t) :
    ∃ u, step s = .next u ∧ Host.Core.run Sys2Proof.core n u = .next t := by
  cases hs : step s with
  | next u => exact ⟨u, rfl, (run_succ_of_next hs n).symm.trans h⟩
  | fault e | refused e =>
    have hcore : Sys2Proof.core.step s = _ := hs
    simp [Host.Core.run, hcore] at h

/-- A run ends finally when it goes on to a state that is not FAULTED. -/
theorem isFinal_ending_iff {n : Nat} {s : State} :
    (ending n s).isFinal = true ↔ ∃ t, Host.Core.run Sys2Proof.core n s = .next t ∧ t.vstate ≠ .faulted := by
  constructor
  · intro h
    unfold ending at h
    split at h
    next t hrun =>
      refine ⟨t, hrun, fun hv => ?_⟩
      rw [if_pos hv] at h
      cases h
    all_goals cases h
  · rintro ⟨t, hrun, hv⟩
    rw [ending_of_run hrun, if_neg hv]
    rfl

/-- What the host does later is what is left of its actions. -/
theorem step_inbox {s t : State} (h : step s = .next t) : t.inbox = s.inbox.tail := by
  obtain ⟨hin, rfl⟩ | ⟨cutOff, rest, hin, rfl⟩ | ⟨r, rest, why, hin, -, ⟨-, rfl⟩ | ⟨-, rfl⟩⟩ |
    ⟨r, rest, i, hin, -, hexec⟩ := step_next h
  · simp [hin]
  · rw [hin]
    rfl
  · rw [hin]
    rfl
  · rw [hin]
    rfl
  · rw [hin, (exec_effect hexec).inbox_eq]
    rfl

/-- Without a reset, a sequence begun in FAULTED stays there. -/
theorem run_of_faulted {n : Nat} {s t : State} (hv : s.vstate = .faulted) (hr : ∀ cutOff, .reset cutOff ∉ s.inbox)
    (hrun : Host.Core.run Sys2Proof.core n s = .next t) : t.vstate = .faulted := by
  induction n generalizing s with
  | zero =>
    cases hrun
    exact hv
  | succ n ih =>
    obtain ⟨u, hstep, hrest⟩ := run_succ_eq_next hrun
    refine ih ?_ (fun cutOff hmem => hr cutOff ?_) hrest
    · by_contra hu
      obtain ⟨cutOff, rest, hin⟩ := resetInputResets.2 s u hv hstep hu
      exact hr cutOff (by simp [hin])
    · rw [step_inbox hstep] at hmem
      exact List.mem_of_mem_tail hmem

/-- A step into FAULTED answers FAULT (60_exceptions.md R102). -/
theorem response_of_step_to_faulted {s t : State} (hstep : step s = .next t) (hs : s.vstate ≠ .faulted)
    (ht : t.vstate = .faulted) : t.response = some { rsp := .fault, result := 0#64 } := by
  obtain ⟨-, -, -, hv⟩ | ⟨r, rest, -, ⟨-, -, hv⟩ | ⟨n, -, -, hv⟩ | ⟨w, -, -, hv, -⟩ | ⟨-, -, hresp⟩⟩ :=
    lifecycleTransitions.2 s t hstep (by rw [ht]; exact Ne.symm hs)
  · simp [ht] at hv
  · simp [ht] at hv
  · rw [ht] at hv
    split at hv <;> cases hv
  · simp [ht] at hv
  · exact hresp

/-- Under the invariant, a sequence without a FAULT response goes on and stays out of FAULTED. -/
theorem exists_run_of_no_fault {n : Nat} {s : State} (h : s.Inv) (hv : s.vstate ≠ .faulted)
    (hr : ∀ r ∈ responses n s, r.rsp ≠ .fault) :
    ∃ t, Host.Core.run Sys2Proof.core n s = .next t ∧ t.vstate ≠ .faulted := by
  induction n generalizing s with
  | zero => exact ⟨s, rfl, hv⟩
  | succ n ih =>
    obtain ⟨u, hstep⟩ := h.exists_step_eq_next
    rw [responses_succ_of_next hstep] at hr
    have hu : u.vstate ≠ .faulted := fun hf =>
      hr { rsp := .fault, result := 0#64 } (by simp [response_of_step_to_faulted hstep hv hf]) rfl
    rw [run_succ_of_next hstep]
    exact ih (everyStepKeepsTheInvariant s u h hstep) hu fun r hmem => hr r (List.mem_append_right _ hmem)

theorem succeeds_iff {n : Nat} {s : State} :
    succeeds n s = true ↔ (ending n s).isFinal = true ∧ ∀ r ∈ responses n s, r.rsp ≠ .fault := by
  simp [succeeds]

/-- Settles O48: an end in FAULTED is not final; under the invariant a sequence without a FAULT response does not enter
FAULTED; and only a reset would leave it. -/
theorem sequencesEndingInFaultedNeverSucceed : Obligations.SequencesEndingInFaultedNeverSucceed := by
  refine ⟨fun n s t hrun hv => ?_, fun n s h hv => ?_, fun n s hv hr => ?_⟩
  · have hend : ending n s = .faultOutcome t := by rw [ending_of_run hrun, if_pos hv]
    exact ⟨hend, by simp [succeeds, hend]⟩
  · rw [succeeds_iff, and_iff_right_iff_imp]
    exact fun hresp => isFinal_ending_iff.mpr (exists_run_of_no_fault h hv hresp)
  · rw [← Bool.not_eq_true, succeeds_iff]
    rintro ⟨hfinal, -⟩
    obtain ⟨t, hrun, ht⟩ := isFinal_ending_iff.mp hfinal
    exact ht (run_of_faulted hv hr hrun)

end Sys2Proof.Machine
end

section
/-! SUPPORT. Proofs of the statements that relate two runs step by step: the two builds (40_popcount.md R71), stale GBUF
entries (10_state.md R26) and unwritten records (10_state.md R35). Each is a relation between two states that every step
keeps; what a step needs of such a relation is said once, as `Simulation`. -/

namespace Sys2Proof.Machine

/-! ### Simulations -/

/-- Two results that go on to related states, or stop with the same reason. -/
inductive Alike (R : State → State → Prop) : Result → Result → Prop
  | next {s u : State} (h : R s u) : Alike R (.next s) (.next u)
  | fault (e : Fault) : Alike R (.fault e) (.fault e)
  | refused (e : Refusal) : Alike R (.refused e) (.refused e)

theorem Alike.ite {R : State → State → Prop} {p q : Prop} [Decidable p] [Decidable q] {a b c d : Result} (hpq : q ↔ p)
    (ht : p → Alike R a c) (he : ¬p → Alike R b d) : Alike R (if p then a else b) (if q then c else d) := by
  by_cases hp : p
  · rw [if_pos hp, if_pos (hpq.mpr hp)]
    exact ht hp
  · rw [if_neg hp, if_neg (fun hq => hp (hpq.mp hq))]
    exact he hp

/-- A relation under which the registers that commands read are equal, and which every write of a command keeps. -/
structure Simulation (R : State → State → Prop) : Prop where
  reads {s u : State} (h : R s u) :
    u.vstate = s.vstate ∧ u.len = s.len ∧ u.nb = s.nb ∧ u.wTotal = s.wTotal ∧ u.wDone = s.wDone ∧ u.gcnt = s.gcnt ∧
      u.bidx = s.bidx ∧ u.running = s.running ∧ u.encOut = s.encOut ∧ u.cfg.maxBlocks = s.cfg.maxBlocks ∧
      u.inbox = s.inbox
  respond {s u : State} (h : R s u) (rsp : Rsp) (v : Word) : R (respond rsp v s) (respond rsp v u)
  raiseFault {s u : State} (h : R s u) (code : FaultCode) (cmd : CmdWord) :
    R (raiseFault code cmd s) (raiseFault code cmd u)
  clearVector {s u : State} (h : R s u) : R (clearVector s) (clearVector u)
  beginLoad {s u : State} (h : R s u) (n : Nat) : R (beginLoad n s) (beginLoad n u)
  stageWord {s u : State} (h : R s u) (m : Fin 4) (w : Word) :
    R { s with stage := s.stage.set m w } { u with stage := u.stage.set m w }
  stageOffset {s u : State} (h : R s u) (off : BitVec 40) : R { s with soff := off } { u with soff := off }
  encode {s u : State} (h : R s u) (count : Nat) :
    R { s with encOut := makeBlock s.cfg.impl s.stage count s.soff }
      { u with encOut := makeBlock u.cfg.impl u.stage count u.soff }
  buffer {s u : State} (h : R s u) {m : Fin 4} (hm : m.val = s.gcnt.toNat) (w : Word) :
    R { takeWord m w s with gcnt := BitVec.ofNat 3 (m.val + 1) }
      { takeWord m w u with gcnt := BitVec.ofNat 3 (m.val + 1) }
  close {s u : State} (h : R s u) {m : Fin 4} (hm : m.val = s.gcnt.toNat) (w : Word) :
    R (closedGroup (m.val + 1) (takeWord m w s)) (closedGroup (m.val + 1) (takeWord m w u))
  ready {s u : State} (h : R s u) : R { s with vstate := .ready } { u with vstate := .ready }
  idleStep {s u : State} (h : R s u) : R (idleStep s) (idleStep u)
  takeReset {s u : State} (h : R s u) (rest : List HostInput) : R (takeReset s rest) (takeReset u rest)
  taking {s u : State} (h : R s u) (rest : List HostInput) : R (s.taking rest) (u.taking rest)

/-- The block indices a query that is not refused reads (43_query.md R90 to R92). -/
inductive Queried (s : State) : Nat → Prop
  | access (i : Nat) (h : i < s.len.toNat) : Queried s (blockIndex i)
  | rank1 (i : Nat) (h : i ≤ s.len.toNat) (hne : blockIndex i ≠ s.nb.toNat) : Queried s (blockIndex i)
  | readBlock (q : Nat) (h : q < s.nb.toNat) : Queried s q

section
variable {R : State → State → Prop} (hR : Simulation R) {s u : State} (h : R s u)
include hR h

theorem Simulation.alike_done (v : Word) : Alike R (done v s) (done v u) := .next (hR.respond h .ok v)

theorem Simulation.alike_recoverable (rsp : Rsp) : Alike R (recoverable rsp s) (recoverable rsp u) :=
  .next (hR.respond h rsp 0#64)

theorem Simulation.alike_serve {i : Instr} {c : Option FaultCode} {a b : Result}
    (hb : legalIn i s.vstate = true → Alike R a b) : Alike R (serve i c s a) (serve i c u b) := by
  have hv := (hR.reads h).1
  unfold serve
  rw [hv]
  split
  · exact .next (hR.respond h _ _)
  split
  · exact .next (hR.raiseFault h _ _)
  split
  · exact .next (hR.raiseFault h _ _)
  split
  next hl => exact hb hl
  next => exact hR.alike_recoverable h _

theorem Simulation.alike_memRead {q : Nat} (hread : u.store.read q = s.store.read q) (f : BlockRecord → Word) :
    Alike R (memRead s q fun rec => done (f rec) s) (memRead u q fun rec => done (f rec) u) := by
  obtain ⟨-, -, -, -, -, -, -, -, -, hmax, -⟩ := hR.reads h
  unfold memRead
  rw [hmax, hread]
  split
  · split
    · exact hR.alike_done h _
    · exact .fault _
  · exact .fault _

theorem Simulation.alike_afterWord {m : Fin 4} (hm : m.val = s.gcnt.toNat) (w : Word) :
    Alike R (afterWord m (takeWord m w s)) (afterWord m (takeWord m w u)) := by
  obtain ⟨-, -, -, hwt, hwd, -, hb, -, -, hmax, -⟩ := hR.reads h
  have hlast : (takeWord m w u).wDone = (takeWord m w u).wTotal ↔ (takeWord m w s).wDone = (takeWord m w s).wTotal := by
    rw [takeWord_wDone, takeWord_wTotal, hwd, hwt, takeWord_wDone, takeWord_wTotal]
  have hroom : (takeWord m w u).bidx.toNat < (takeWord m w u).cfg.maxBlocks ↔
      (takeWord m w s).bidx.toNat < (takeWord m w s).cfg.maxBlocks := by
    rw [takeWord_bidx, takeWord_cfg, hb, hmax, takeWord_bidx, takeWord_cfg]
  rw [afterWord_eq, afterWord_eq]
  refine .ite hlast (fun _ => .ite hroom (fun _ => ?_) fun _ => .fault _)
    fun _ => .ite Iff.rfl (fun _ => .ite hroom (fun _ => ?_) fun _ => .fault _) fun _ => ?_
  · exact .next (hR.respond (hR.ready (hR.close h hm w)) _ _)
  · exact .next (hR.respond (hR.close h hm w) _ _)
  · exact .next (hR.respond (hR.buffer h hm w) _ _)

/-- A command does alike in related states, if the records it reads are equal and, for STATUS, the STATUS word. -/
theorem Simulation.alike_exec {i : Instr} (hstatus : i = .status → statusWord u = statusWord s)
    (hread : s.vstate = .empty ∨ s.vstate = .ready → ∀ q, Queried s q → u.store.read q = s.store.read q) :
    Alike R (exec i s) (exec i u) := by
  obtain ⟨hv, hlen, hnb, -, -, hg, -, hrun, henc, hmax, -⟩ := hR.reads h
  cases i with
  | nop =>
    unfold exec execNop
    exact hR.alike_serve h fun _ => hR.alike_done h _
  | clear =>
    unfold exec execClear
    exact hR.alike_serve h fun _ => .next (hR.respond (hR.clearVector h) _ _)
  | loadBegin n =>
    unfold exec execLoadBegin
    rw [hv, hmax]
    refine hR.alike_serve h fun _ => ?_
    split
    · exact hR.alike_recoverable h _
    · exact .next (hR.respond (hR.beginLoad h _) _ _)
  | loadWord w =>
    unfold exec execLoadWord
    refine hR.alike_serve h fun _ => ?_
    simp only [hg]
    split
    · exact hR.alike_afterWord h rfl w
    · exact .fault _
  | popcnt w =>
    unfold exec execPopcnt
    simp only [popcount_eq_popcnt]
    exact hR.alike_serve h fun _ => hR.alike_done h _
  | stageWord j w =>
    unfold exec execStageWord
    exact hR.alike_serve h fun _ => .next (hR.respond (hR.stageWord h _ w) _ _)
  | stageOffset off =>
    unfold exec execStageOffset
    refine hR.alike_serve h fun _ => ?_
    split
    · exact hR.alike_recoverable h _
    · exact .next (hR.respond (hR.stageOffset h _) _ _)
  | encode count =>
    unfold exec execEncode
    exact hR.alike_serve h fun _ => .next (hR.respond (hR.encode h _) _ _)
  | readEnc k =>
    unfold exec execReadEnc
    rw [henc]
    exact hR.alike_serve h fun _ => hR.alike_done h _
  | length =>
    unfold exec execLength
    rw [hlen]
    exact hR.alike_serve h fun _ => hR.alike_done h _
  | access a =>
    unfold exec execAccess
    refine hR.alike_serve h fun hl => ?_
    simp only [hlen]
    split
    · exact hR.alike_recoverable h _
    · exact hR.alike_memRead h (hread (query_of_legal hl) _ (.access _ (by omega))) _
  | rank1 a =>
    unfold exec execRank1
    refine hR.alike_serve h fun hl => ?_
    simp only [hlen, hnb, hrun, rankWithin, popcount_eq_popcnt]
    split
    · exact hR.alike_done h _
    split
    · exact hR.alike_recoverable h _
    split
    next => exact hR.alike_done h _
    next hne =>
      exact hR.alike_memRead h (hread (query_of_legal hl) _ (.rank1 _ (by omega) hne)) _
  | readBlock k q =>
    unfold exec execReadBlock
    refine hR.alike_serve h fun hl => ?_
    simp only [hnb]
    split
    · exact hR.alike_recoverable h _
    · exact hR.alike_memRead h (hread (query_of_legal hl) _ (.readBlock _ (by omega))) _
  | status =>
    unfold exec execStatus
    rw [hstatus rfl]
    exact hR.alike_done h _

/-- Every step does alike in related states, on the same conditions. -/
theorem Simulation.alike_step
    (hstatus : ∀ r rest, s.inbox = .request r :: rest → decode r = .instr .status → statusWord u = statusWord s)
    (hread : s.vstate = .empty ∨ s.vstate = .ready → ∀ q, Queried s q → u.store.read q = s.store.read q) :
    Alike R (step s) (step u) := by
  obtain ⟨hv, -, -, -, -, -, -, -, -, -, hinbox⟩ := hR.reads h
  cases hin : s.inbox with
  | nil =>
    rw [step_of_empty hin, step_of_empty (hinbox.trans hin)]
    exact .next (hR.idleStep h)
  | cons a rest =>
    cases a with
    | reset cutOff =>
      rw [step_of_reset hin, step_of_reset (hinbox.trans hin)]
      exact .next (hR.takeReset h rest)
    | request r =>
      cases hd : decode r with
      | illegal why =>
        by_cases hf : s.vstate = .faulted
        · rw [step_of_illegal_of_faulted hin hf hd, step_of_illegal_of_faulted (hinbox.trans hin) (hv.trans hf) hd]
          exact .next (hR.respond (hR.taking h rest) _ _)
        · rw [step_of_illegal hin hf hd, step_of_illegal (hinbox.trans hin) (hv ▸ hf) hd]
          exact .next (hR.raiseFault (hR.taking h rest) _ _)
      | instr i =>
        rw [step_of_instr hin hd, step_of_instr (hinbox.trans hin) hd]
        refine hR.alike_exec (hR.taking h rest) (fun hi => hstatus r rest hin (hi ▸ hd)) fun hq q hqq => ?_
        refine hread hq q ?_
        cases hqq with
        | access i hi => exact .access i hi
        | rank1 i hi hne => exact .rank1 i hi hne
        | readBlock q hq => exact .readBlock q hq

end

theorem Alike.exists_eq_next {R : State → State → Prop} {r : Result} {t : State} (h : Alike R (.next t) r) :
    ∃ v, r = .next v ∧ R t v := by
  cases h with
  | next h => exact ⟨_, rfl, h⟩

/-- Related results go on alike and stop alike. -/
theorem Alike.stops {R : State → State → Prop} {a b : Result} (h : Alike R a b) :
    (∀ u, b = .next u → ∃ t, a = .next t) ∧ (∀ e, a = .fault e ↔ b = .fault e) ∧
      (∀ e, a = .refused e ↔ b = .refused e) := by
  cases h <;> simp

/-! ### The two builds (40_popcount.md R71) -/

/-- The second state is the first in a SWAR build. -/
def InSwarBuild (s u : State) : Prop := u = s.builtWith .swar

theorem makeBlock_impl (p q : PopcntImpl) (words : Quad) (count : Nat) (off : BitVec 40) :
    makeBlock p words count off = makeBlock q words count off := by
  simp only [makeBlock, popcount_eq_popcnt]

theorem closedGroup_builtWith (g : Nat) (s : State) (p : PopcntImpl) :
    closedGroup g (s.builtWith p) = (closedGroup g s).builtWith p := by
  simp only [closedGroup, State.builtWith, makeBlock_impl p s.cfg.impl, groupCount, popcount_eq_popcnt]

theorem inSwarBuild_simulation : Simulation InSwarBuild where
  reads := by
    rintro s _ rfl
    exact ⟨rfl, rfl, rfl, rfl, rfl, rfl, rfl, rfl, rfl, rfl, rfl⟩
  respond := by rintro s _ rfl _ _; rfl
  raiseFault := by rintro s _ rfl _ _; rfl
  clearVector := by rintro s _ rfl; rfl
  beginLoad := by rintro s _ rfl _; rfl
  stageWord := by rintro s _ rfl _ _; rfl
  stageOffset := by rintro s _ rfl _; rfl
  encode := by
    rintro s _ rfl count
    rw [makeBlock_impl]
    rfl
  buffer := by rintro s _ rfl m _ w; rfl
  close := by
    rintro s _ rfl m _ w
    exact closedGroup_builtWith (m.val + 1) (takeWord m w s) .swar
  ready := by rintro s _ rfl; rfl
  idleStep := by rintro s _ rfl; rfl
  takeReset := by rintro s _ rfl _; rfl
  taking := by rintro s _ rfl _; rfl

/-- STATUS bit 8 shows the build, and no other bit does (10_state.md R32). -/
theorem getLsbD_statusWord_builtWith (s : State) (p : PopcntImpl) (k : Nat) :
    (statusWord (s.builtWith p)).getLsbD k = if k = 8 then p.bit.getLsbD 0 else (statusWord s).getLsbD k := by
  by_cases h8 : k = 8
  · obtain ⟨-, -, -, hbit, -⟩ := statusWord_fields (s.builtWith p)
    have hp : (s.builtWith p).cfg.impl.bit = p.bit := rfl
    rw [if_pos h8, h8, ← hp, ← hbit]
    simp
  · simp only [if_neg h8, statusWord, BitVec.getLsbD_append, State.builtWith]
    split
    · rfl
    split
    · rfl
    split
    · rfl
    have hbit : ¬k - 2 - 2 - 4 < 1 := by omega
    rw [if_neg hbit, if_neg hbit]

theorem getLsbD_statusWord_hw (s : State) : (statusWord (s.builtWith .hw)).getLsbD 8 = false := by
  rw [getLsbD_statusWord_builtWith, if_pos rfl]
  rfl

theorem statusWord_swar (s : State) :
    statusWord (s.builtWith .swar) = statusWord (s.builtWith .hw) ||| 0x100#64 := by
  have hmask : ∀ k < 64, (0x100#64 : Word).getLsbD k = decide (k = 8) := by decide
  refine BitVec.eq_of_getLsbD_eq fun k hk => ?_
  rw [BitVec.getLsbD_or, hmask k hk, getLsbD_statusWord_builtWith, getLsbD_statusWord_builtWith]
  by_cases h8 : k = 8
  · simp [h8, PopcntImpl.bit]
  · simp [h8]

theorem step_of_status {s : State} {r : Request} {rest : List HostInput} (hin : s.inbox = .request r :: rest)
    (hd : decode r = .instr .status) (p : PopcntImpl) :
    step (s.builtWith p) =
      .next (((s.builtWith p).taking rest).answering .ok (statusWord (s.builtWith p))) :=
  step_of_instr (s := s.builtWith p) hin hd

/-- Settles O15: STATUS answers in both builds; every other step simulates, either circuit computing popcnt. -/
theorem hwAndSwarBuildsAnswerAlike : Obligations.HwAndSwarBuildsAnswerAlike := by
  intro s
  by_cases hst : ∃ r rest, s.inbox = .request r :: rest ∧ decode r = .instr .status
  · obtain ⟨r, rest, hin, hd⟩ := hst
    rw [step_of_status hin hd .hw, step_of_status hin hd .swar]
    refine ⟨?_, by simp, by simp, by simp⟩
    rintro t ht
    cases ht
    refine ⟨some { rsp := .ok, result := statusWord (s.builtWith .swar) }, rfl, fun hnot => absurd hd (hnot r rest hin),
      fun _ _ _ _ => ⟨_, rfl, getLsbD_statusWord_hw s, by rw [statusWord_swar]⟩⟩
  · have halike : Alike InSwarBuild (step (s.builtWith .hw)) (step (s.builtWith .swar)) :=
      inSwarBuild_simulation.alike_step rfl (fun r rest hin hd => absurd ⟨r, rest, hin, hd⟩ hst) fun _ _ _ => rfl
    refine ⟨fun t ht => ?_, halike.stops⟩
    rw [ht] at halike
    obtain ⟨_, hu, rfl⟩ := halike.exists_eq_next
    exact ⟨t.response, hu, fun _ => rfl, fun r rest hin hd => absurd ⟨r, rest, hin, hd⟩ hst⟩

/-! ### Stale GBUF entries (10_state.md R26) -/

/-- The second state differs from the first in GBUF entries at and beyond GCNT only. -/
def SameBelowGcnt (s u : State) : Prop :=
  ∃ g : Quad, u = { s with gbuf := g } ∧ ∀ m : Fin 4, m.val < s.gcnt.toNat → g.get m = s.gbuf.get m

theorem forall_lt_zero {P : Fin 4 → Prop} {g : BitVec 3} (hg : g = 0#3) (m : Fin 4) (hm : m.val < g.toNat) : P m := by
  subst hg
  exact absurd hm (Nat.not_lt_zero _)

/-- A word taken at GBUF[m] makes the entries up to m agree. -/
theorem get_set_eq_of_agree {g h : Quad} {m : Fin 4} (hagree : ∀ k : Fin 4, k.val < m.val → g.get k = h.get k)
    (w : Word) (k : Fin 4) (hk : k.val < m.val + 1) : (g.set m w).get k = (h.set m w).get k := by
  by_cases hkm : k = m
  · rw [hkm, Quad.get_set_same, Quad.get_set_same]
  · have hlt : k.val < m.val := by omega
    rw [Quad.get_set_other _ _ hkm, Quad.get_set_other _ _ hkm, hagree k hlt]

theorem sameBelowGcnt_simulation : Simulation SameBelowGcnt where
  reads := by
    rintro s _ ⟨g, rfl, hg⟩
    exact ⟨rfl, rfl, rfl, rfl, rfl, rfl, rfl, rfl, rfl, rfl, rfl⟩
  respond := by rintro s _ ⟨g, rfl, hg⟩ _ _; exact ⟨g, rfl, hg⟩
  raiseFault := by rintro s _ ⟨g, rfl, hg⟩ _ _; exact ⟨g, rfl, hg⟩
  clearVector := by rintro s _ ⟨g, rfl, hg⟩; exact ⟨g, rfl, forall_lt_zero rfl⟩
  beginLoad := by rintro s _ ⟨g, rfl, hg⟩ _; exact ⟨g, rfl, forall_lt_zero rfl⟩
  stageWord := by rintro s _ ⟨g, rfl, hg⟩ _ _; exact ⟨g, rfl, hg⟩
  stageOffset := by rintro s _ ⟨g, rfl, hg⟩ _; exact ⟨g, rfl, hg⟩
  encode := by rintro s _ ⟨g, rfl, hg⟩ _; exact ⟨g, rfl, hg⟩
  buffer := by
    rintro s _ ⟨g, rfl, hg⟩ m hm w
    refine ⟨g.set m w, rfl, fun k hk => get_set_eq_of_agree (by rwa [hm]) w k ?_⟩
    exact hk.trans_le ((BitVec.toNat_ofNat _ _).trans_le (Nat.mod_le _ _))
  close := by
    rintro s _ ⟨g, rfl, hg⟩ m hm w
    have hagree := get_set_eq_of_agree (hm ▸ hg) w
    refine ⟨g.set m w, ?_, forall_lt_zero rfl⟩
    simp only [closedGroup, takeWord, makeBlock_congr _ _ hagree, groupCount_congr _ hagree]
  ready := by rintro s _ ⟨g, rfl, hg⟩; exact ⟨g, rfl, hg⟩
  idleStep := by rintro s _ ⟨g, rfl, hg⟩; exact ⟨g, rfl, hg⟩
  takeReset := by rintro s _ ⟨g, rfl, hg⟩ _; exact ⟨Quad.zero, rfl, fun _ _ => rfl⟩
  taking := by rintro s _ ⟨g, rfl, hg⟩ _; exact ⟨g, rfl, hg⟩

/-- Settles O59: a word is taken into an entry before it is read, and no other command reads GBUF. -/
theorem staleGroupWordsAreUnobservable : Obligations.StaleGroupWordsAreUnobservable := by
  intro s t gbuf _ hagree hstep
  have h : SameBelowGcnt s { s with gbuf := gbuf } := ⟨gbuf, rfl, hagree⟩
  have halike := sameBelowGcnt_simulation.alike_step h (fun _ _ _ _ => rfl) fun _ _ _ => rfl
  rw [hstep] at halike
  obtain ⟨_, hu, g, rfl, hg⟩ := halike.exists_eq_next
  exact ⟨g, hu, hg⟩

/-! ### Unwritten records (10_state.md R35) -/

/-- The second state differs from the first in records at and beyond BIDX only. -/
def SameBelowBidx (s u : State) : Prop :=
  ∃ bs : BlockStore, u = { s with store := bs } ∧ ∀ q < s.bidx.toNat, bs.read q = s.store.read q

/-- The record written at BIDX makes the stores agree up to it. -/
theorem read_write_eq_of_agree {bs cs : BlockStore} {n : Nat} (hagree : ∀ q < n, bs.read q = cs.read q)
    (rec : BlockRecord) {q : Nat} (hq : q < n + 1) : (bs.write n rec).read q = (cs.write n rec).read q := by
  by_cases hqn : q = n
  · rw [hqn, BlockStore.read_write_same, BlockStore.read_write_same]
  · rw [BlockStore.read_write_other _ _ hqn, BlockStore.read_write_other _ _ hqn, hagree q (by omega)]

theorem sameBelowBidx_simulation : Simulation SameBelowBidx where
  reads := by
    rintro s _ ⟨bs, rfl, hbs⟩
    exact ⟨rfl, rfl, rfl, rfl, rfl, rfl, rfl, rfl, rfl, rfl, rfl⟩
  respond := by rintro s _ ⟨bs, rfl, hbs⟩ _ _; exact ⟨bs, rfl, hbs⟩
  raiseFault := by rintro s _ ⟨bs, rfl, hbs⟩ _ _; exact ⟨bs, rfl, hbs⟩
  clearVector := by rintro s _ ⟨bs, rfl, hbs⟩; exact ⟨bs, rfl, fun _ hq => absurd hq (Nat.not_lt_zero _)⟩
  beginLoad := by rintro s _ ⟨bs, rfl, hbs⟩ _; exact ⟨bs, rfl, fun _ hq => absurd hq (Nat.not_lt_zero _)⟩
  stageWord := by rintro s _ ⟨bs, rfl, hbs⟩ _ _; exact ⟨bs, rfl, hbs⟩
  stageOffset := by rintro s _ ⟨bs, rfl, hbs⟩ _; exact ⟨bs, rfl, hbs⟩
  encode := by rintro s _ ⟨bs, rfl, hbs⟩ _; exact ⟨bs, rfl, hbs⟩
  buffer := by rintro s _ ⟨bs, rfl, hbs⟩ m hm w; exact ⟨bs, rfl, hbs⟩
  close := by
    rintro s _ ⟨bs, rfl, hbs⟩ m hm w
    refine ⟨bs.write s.bidx.toNat (closingRecord m w s), rfl, fun q hq => read_write_eq_of_agree hbs _ ?_⟩
    exact hq.trans_le ((BitVec.toNat_add _ _).trans_le (Nat.mod_le _ _))
  ready := by rintro s _ ⟨bs, rfl, hbs⟩; exact ⟨bs, rfl, hbs⟩
  idleStep := by rintro s _ ⟨bs, rfl, hbs⟩; exact ⟨bs, rfl, hbs⟩
  takeReset := by rintro s _ ⟨bs, rfl, hbs⟩ _; exact ⟨[], rfl, fun _ _ => rfl⟩
  taking := by rintro s _ ⟨bs, rfl, hbs⟩ _; exact ⟨bs, rfl, hbs⟩

theorem State.Inv.lt_nb_of_queried {s : State} (h : s.Inv) {q : Nat} (hq : Queried s q) : q < s.nb.toNat := by
  cases hq with
  | access i hi => exact h.blockIndex_lt_nb hi
  | rank1 i hi hne => exact h.blockIndex_lt_nb_of_ne hi hne
  | readBlock q hq => exact hq

/-- Settles O60: queries read records below NB, which is BIDX when they are legal, and LOAD_WORD writes a record before
BIDX passes it. -/
theorem unwrittenRecordsAreUnobservable : Obligations.UnwrittenRecordsAreUnobservable := by
  intro s t store hinv hagree hstep
  have h : SameBelowBidx s { s with store := store } := ⟨store, rfl, hagree⟩
  have halike := sameBelowBidx_simulation.alike_step h (fun _ _ _ _ => rfl) fun hv q hq =>
    hagree q (by rw [hinv.bidx_eq_nb hv]; exact hinv.lt_nb_of_queried hq)
  rw [hstep] at halike
  obtain ⟨_, hu, bs, rfl, hbs⟩ := halike.exists_eq_next
  exact ⟨bs, hu, hbs⟩

end Sys2Proof.Machine
end

section
/-! SUPPORT. Proofs of the statements about the answers of the queries over a whole vector (43_query.md R93 to R95): a
record's counts are the counts of set bits before its words, so RANK1 counts the set bits before a position. -/

namespace Sys2Proof.Machine

/-! ### The set bits of one record -/

theorem countTrue_msbFirst (w : Word) : countTrue (fun p => w.getLsbD (63 - p)) 64 = popcnt w :=
  countTrue_reverse w.getLsbD 64

/-- The positions of word m of a record, from its first. -/
theorem BlockRecord.bit_word (rec : BlockRecord) (m : Fin 4) {k : Nat} (hk : k < 64) :
    rec.bit (64 * m.val + k) = (rec.payload.get m).getLsbD (63 - k) := by
  rw [rec.bit_eq (m := m) (by omega)]
  congr 2
  omega

theorem BlockRecord.countTrue_bit (rec : BlockRecord) (m : Fin 4) {b : Nat} (hb : b ≤ 64) :
    countTrue rec.bit (64 * m.val + b) =
      countTrue rec.bit (64 * m.val) + countTrue (fun p => (rec.payload.get m).getLsbD (63 - p)) b := by
  rw [countTrue_add]
  congr 1
  exact countTrue_congr fun k hk => rec.bit_word m (by omega)

/-- The set bits before word m + 1. -/
theorem BlockRecord.countTrue_bit_word (rec : BlockRecord) (m : Fin 4) :
    countTrue rec.bit (64 * (m.val + 1)) = countTrue rec.bit (64 * m.val) + popcnt (rec.payload.get m) := by
  rw [Nat.mul_add_one, rec.countTrue_bit m (Nat.le_refl 64), countTrue_msbFirst]

/-- The set bits of the first one to four words. -/
theorem BlockRecord.countTrue_bit_words (rec : BlockRecord) :
    countTrue rec.bit 64 = popcnt rec.payload.w0 ∧
    countTrue rec.bit 128 = popcnt rec.payload.w0 + popcnt rec.payload.w1 ∧
    countTrue rec.bit 192 = popcnt rec.payload.w0 + popcnt rec.payload.w1 + popcnt rec.payload.w2 ∧
    countTrue rec.bit 256 = rec.ones := by
  have hzero : countTrue rec.bit 0 = 0 := rfl
  have h0 : countTrue rec.bit 64 = countTrue rec.bit 0 + popcnt rec.payload.w0 := rec.countTrue_bit_word 0
  have h1 : countTrue rec.bit 128 = countTrue rec.bit 64 + popcnt rec.payload.w1 := rec.countTrue_bit_word 1
  have h2 : countTrue rec.bit 192 = countTrue rec.bit 128 + popcnt rec.payload.w2 := rec.countTrue_bit_word 2
  have h3 : countTrue rec.bit 256 = countTrue rec.bit 192 + popcnt rec.payload.w3 := rec.countTrue_bit_word 3
  unfold BlockRecord.ones
  omega

/-- The small count before word m counts the set bits before it (10_state.md R37). -/
theorem BlockRecord.Good.countBefore_eq {rec : BlockRecord} {count large : Nat} (h : rec.Good count large) (m : Fin 4) :
    rec.countBefore m = countTrue rec.bit (64 * m.val) := by
  obtain ⟨h64, h128, h192, -⟩ := rec.countTrue_bit_words
  fin_cases m
  · rfl
  · exact h.small0_eq.trans h64.symm
  · exact h.small1_eq.trans h128.symm
  · exact h.small2_eq.trans h192.symm

/-- RANK1's sum over one record (43_query.md R91). -/
theorem BlockRecord.Good.rankWithin_eq {rec : BlockRecord} {count large : Nat} (h : rec.Good count large)
    (impl : PopcntImpl) (i : Nat) : rankWithin impl rec i = large + countTrue rec.bit (i % 256) := by
  have hpos : i % 256 = 64 * (wordIndex i).val + bitOffset i := by
    simp only [wordIndex, bitOffset]
    omega
  have hb : bitOffset i ≤ 64 := (Nat.mod_lt i (by decide)).le
  rw [rankWithin, h.large_eq, h.countBefore_eq, popcount_eq_popcnt, popcnt_and_leadMask _ hb, hpos,
    rec.countTrue_bit _ hb, add_assoc]

/-! ### The set bits of a vector -/

theorem BlockStore.bit_eq {bs : BlockStore} {p : Nat} {rec : BlockRecord} (h : bs.read (p / 256) = some rec) :
    bs.bit p = rec.bit (p % 256) := by
  rw [BlockStore.bit, blockIndex, h]

/-- The set bits at the first b positions of a stored block. -/
theorem BlockStore.countTrue_bit_block {bs : BlockStore} {q b : Nat} {rec : BlockRecord} (h : bs.read q = some rec)
    (hb : b ≤ 256) : countTrue (fun k => bs.bit (256 * q + k)) b = countTrue rec.bit b := by
  refine countTrue_congr fun k hk => ?_
  have hdiv : (256 * q + k) / 256 = q := by omega
  have hmod : (256 * q + k) % 256 = k := by omega
  rw [bit_eq (hdiv.symm ▸ h), hmod]

/-- The set bits of whole blocks are the popcounts of their records. -/
theorem BlockStore.countTrue_bit_blocks {bs : BlockStore} {q : Nat} (h : ∀ p < q, ∃ rec, bs.read p = some rec) :
    countTrue bs.bit (256 * q) = bs.onesBefore q := by
  induction q with
  | zero => rfl
  | succ q ih =>
    obtain ⟨rec, hread⟩ := h q (Nat.lt_succ_self q)
    obtain ⟨-, -, -, hones⟩ := rec.countTrue_bit_words
    rw [Nat.mul_add_one, countTrue_add, ih fun p hp => h p (by omega), onesBefore_succ_of_read hread,
      countTrue_bit_block hread (Nat.le_refl 256), hones]

/-- The set bits before a position: those of the blocks before its own, and those before it in its own. -/
theorem BlockStore.countTrue_bit {bs : BlockStore} {i : Nat} {rec : BlockRecord}
    (h : ∀ p < i / 256, ∃ rec, bs.read p = some rec) (hread : bs.read (i / 256) = some rec) :
    countTrue bs.bit i = bs.onesBefore (i / 256) + countTrue rec.bit (i % 256) := by
  have hi : i = 256 * (i / 256) + i % 256 := by omega
  conv_lhs => rw [hi, countTrue_add, countTrue_bit_blocks h]
  rw [countTrue_bit_block hread (Nat.mod_lt i (by decide)).le]

/-! ### What the queries answer in READY (43_query.md R94) -/

theorem toInt_ofNat_of_le {i : Nat} (h : i ≤ 2 ^ 41) : (BitVec.ofNat 64 i).toInt = i := by
  have hnat : (BitVec.ofNat 64 i).toNat = i := by rw [BitVec.toNat_ofNat, Nat.mod_eq_of_lt (by omega)]
  rw [BitVec.toInt_eq_toNat_of_lt (by omega), hnat]

section
variable {s : State} (h : s.Inv) (hv : s.vstate = .ready) {i : Nat}
include h hv

theorem State.Inv.exec_access (hi : i < s.len.toNat) :
    exec (.access (BitVec.ofNat 64 i)) s = .next (s.answering .ok (if s.store.bit i then 1#64 else 0#64)) := by
  have hlen := s.len.isLt
  obtain ⟨hmax, rec, hread, -⟩ := h.exists_read (.inr hv) (h.blockIndex_lt_nb hi)
  rw [exec_access_of_read (.inr hv) (toInt_ofNat_of_le (by omega)) hi hmax hread, BlockStore.bit_eq hread]

theorem State.Inv.exec_rank1 (hi : i ≤ s.len.toNat) :
    exec (.rank1 (BitVec.ofNat 64 i)) s = .next (s.answering .ok (BitVec.ofNat 64 (countTrue s.store.bit i))) := by
  have hlen := s.len.isLt
  have ha := toInt_ofNat_of_le (i := i) (by omega)
  have hstored : ∀ p < s.nb.toNat, ∃ rec, s.store.read p = some rec := fun p hp => by
    obtain ⟨-, rec, hread, -⟩ := h.exists_read (.inr hv) hp
    exact ⟨rec, hread⟩
  by_cases hnb : blockIndex i = s.nb.toNat
  · have hend : i = 256 * s.nb.toNat := by
      have hle := h.nb_eq
      unfold blocksOf at hle
      unfold blockIndex at hnb
      omega
    have hcount : countTrue s.store.bit i = s.running.toNat := by
      rw [hend, BlockStore.countTrue_bit_blocks hstored, h.running_eq, (h.phase_ready hv).1]
    rw [exec_rank1_of_nb (.inr hv) ha hi hnb, hcount, BitVec.ofNat_toNat]
  · have hlt := h.blockIndex_lt_nb_of_ne hi hnb
    obtain ⟨hmax, rec, hread, hgood⟩ := h.exists_read (.inr hv) hlt
    rw [exec_rank1_of_read (.inr hv) ha hi hnb hmax hread, hgood.rankWithin_eq,
      BlockStore.countTrue_bit (fun p hp => hstored p (hp.trans hlt)) hread]
    rfl

end

/-- Settles O39: the record of a position below LEN is stored and good. -/
theorem queriesAnswerTheStoredVector : Obligations.QueriesAnswerTheStoredVector :=
  fun _ h hv => ⟨fun _ => h.exec_access hv, fun _ => h.exec_rank1 hv, fun _ => exec_rank1_of_negative (.inr hv)⟩

theorem toNat_ofNat_countTrue (f : Nat → Bool) {i : Nat} (hi : i < 2 ^ 64) :
    (BitVec.ofNat 64 (countTrue f i)).toNat = countTrue f i := by
  have hle := countTrue_le f i
  rw [BitVec.toNat_ofNat, Nat.mod_eq_of_lt (by omega)]

/-- Settles O40: one more position counts at most one more bit. -/
theorem rankGrowsByAtMostOne : Obligations.RankGrowsByAtMostOne := by
  intro s h hv
  refine ⟨h.exec_rank1 hv (Nat.zero_le _), fun i hi => ?_⟩
  have hlen := s.len.isLt
  have hbit := Bool.toNat_le (s.store.bit i)
  have hle := countTrue_le s.store.bit i
  have hsucc : countTrue s.store.bit (i + 1) = countTrue s.store.bit i + (s.store.bit i).toNat := rfl
  have ha := toNat_ofNat_countTrue s.store.bit (i := i) (by omega)
  have hb := toNat_ofNat_countTrue s.store.bit (i := i + 1) (by omega)
  exact ⟨_, _, by omega, by omega, by omega, h.exec_rank1 hv hi.le, h.exec_rank1 hv hi⟩

/-- Settles O41: the answers are functions of the bits below LEN. -/
theorem trailingBitsChangeNoQuery : Obligations.TrailingBitsChangeNoQuery := by
  intro s u hs hu hvs hvu hlen hbits
  refine ⟨fun i hi => ⟨_, hs.exec_access hvs hi, ?_⟩, fun i hi => ⟨_, hs.exec_rank1 hvs hi, ?_⟩⟩
  · rw [hbits i hi]
    exact hu.exec_access hvu (hlen ▸ hi)
  · rw [countTrue_congr fun p hp => hbits p (hp.trans_le hi)]
    exact hu.exec_rank1 hvu (hlen ▸ hi)

end Sys2Proof.Machine
end

section
/-! SUPPORT. Proofs of the statements about a whole load (42_vector_load.md R84, 43_query.md R94): what holds after its
first k words, kept by every LOAD_WORD. -/

namespace Sys2Proof.Machine

/-! ### The words of a load, group by group -/

theorem groupAt_get (ws : List Word) (q : Nat) (m : Fin 4) : (groupAt ws q).get m = wordAt ws (4 * q + m.val) := by
  fin_cases m <;> rfl

/-- How many of the words group q has. -/
def groupSize (ws : List Word) (q : Nat) : Nat := min 4 (ws.length - 4 * q)

/-- Past the end of the load a group holds zeros, as `make_block` pads it (41_block_encoder.md R73). -/
theorem padded_groupAt (ws : List Word) (q : Nat) : padded (groupAt ws q) (groupSize ws q) = groupAt ws q := by
  refine Quad.ext_get fun m => ?_
  rw [padded_get, groupAt_get]
  split
  · rfl
  · rename_i hm
    unfold groupSize at hm
    rw [wordAt, List.getD_eq_default _ _ (by omega)]

theorem onesIn_take_succ (ws : List Word) (k : Nat) :
    onesIn (ws.take (k + 1)) = onesIn (ws.take k) + popcnt (wordAt ws k) := by
  rw [List.take_add_one, wordAt, List.getD_eq_getElem?_getD]
  cases ws[k]? <;> simp [onesIn]

/-- The words of the first q + 1 groups: those of the first q, and group q. -/
theorem onesIn_take_group (ws : List Word) (q : Nat) (p : PopcntImpl) (off : BitVec 40) :
    onesIn (ws.take (4 * (q + 1))) =
      onesIn (ws.take (4 * q)) + (makeBlock p (groupAt ws q) (groupSize ws q) off).ones := by
  rw [BlockRecord.ones, makeBlock_payload, padded_groupAt, show 4 * (q + 1) = 4 * q + 1 + 1 + 1 + 1 by omega,
    onesIn_take_succ, onesIn_take_succ, onesIn_take_succ, onesIn_take_succ]
  simp only [groupAt, add_assoc]

/-! ### The state after k words -/

/-- What the host still does after the first k words: the other words of the load, then its later actions. -/
def remaining (s : State) (ws : List Word) (k : Nat) : List HostInput :=
  (ws.drop k).map (fun w => .request (encode (.loadWord w))) ++ s.inbox

theorem remaining_of_lt (s : State) {ws : List Word} {k : Nat} (hk : k < ws.length) :
    remaining s ws k = .request (encode (.loadWord (wordAt ws k))) :: remaining s ws (k + 1) := by
  rw [remaining, List.drop_eq_getElem_cons hk, wordAt, List.getD_eq_getElem _ _ hk]
  rfl

/-- What holds once the first k words of a load of n bits, begun in `s`, are taken (42_vector_load.md R83, R84). -/
structure LoadProgress (s : State) (n : Word) (ws : List Word) (k : Nat) (t : State) : Prop where
  inv : t.Inv
  vstate : t.vstate = if k = ws.length then .ready else .loading
  cfg : t.cfg = s.cfg
  len : t.len.toNat = n.toNat
  wDone : t.wDone.toNat = k
  inbox : t.inbox = remaining s ws k
  buffer : ∀ m : Fin 4, m.val < t.gcnt.toNat → t.gbuf.get m = wordAt ws (4 * t.bidx.toNat + m.val)
  records : ∀ q < t.bidx.toNat, ∃ offset : BitVec 40, offset.toNat = onesIn (ws.take (4 * q)) ∧
    t.store.read q = some (makeBlock s.cfg.impl (groupAt ws q) (groupSize ws q) offset)
  running : t.running.toNat = onesIn (ws.take (4 * t.bidx.toNat))

section
variable {s t : State} {n : Word} {ws : List Word} {k : Nat} (hlength : ws.length = wordsOf n.toNat)
  (h : LoadProgress s n ws k t)
include h

theorem LoadProgress.loading (hk : k < ws.length) : t.vstate = .loading := by
  rw [h.vstate, if_neg hk.ne]

include hlength in
theorem LoadProgress.wTotal : t.wTotal.toNat = ws.length := by
  rw [h.inv.wTotal_eq, h.len, hlength]

theorem LoadProgress.step_eq (hk : k < ws.length) :
    step t = exec (.loadWord (wordAt ws k)) (t.taking (remaining s ws (k + 1))) :=
  step_of_instr (h.inbox.trans (remaining_of_lt s hk)) (encodeThenDecodeGivesTheCommand _ rfl)

theorem LoadProgress.wDone_eq (hk : k < ws.length) : k = 4 * t.bidx.toNat + t.gcnt.toNat := by
  obtain ⟨-, -, heq⟩ := h.inv.phase_loading (h.loading hk)
  rw [← heq, h.wDone]

/-- After word k the entries of GBUF up to it are those of its group. -/
theorem LoadProgress.buffer_set (hk : k < ws.length) {m : Fin 4} (hm : m.val = t.gcnt.toNat) (j : Fin 4)
    (hj : j.val < m.val + 1) : (t.gbuf.set m (wordAt ws k)).get j = (groupAt ws t.bidx.toNat).get j := by
  rw [groupAt_get]
  by_cases hjm : j = m
  · rw [hjm, Quad.get_set_same, h.wDone_eq hk, hm]
  · have hlt : j.val < t.gcnt.toNat := by omega
    rw [Quad.get_set_other _ _ hjm, h.buffer j hlt]

include hlength in
theorem LoadProgress.last_iff (hk : k < ws.length) : t.wDone + 1#35 = t.wTotal ↔ k + 1 = ws.length := by
  rw [h.inv.last_iff (h.loading hk), h.wDone, h.wTotal hlength]

/-- A word that leaves room in its group. -/
theorem LoadProgress.buffered {m : Fin 4} (hk : k < ws.length) (hm : m.val = t.gcnt.toNat) (hlast : k + 1 ≠ ws.length)
    {u : State} (hu : u.Inv)
    (heq : u = ({ takeWord m (wordAt ws k) (t.taking (remaining s ws (k + 1))) with
      gcnt := BitVec.ofNat 3 (m.val + 1) } : State).answering .ok 0#64) :
    LoadProgress s n ws (k + 1) u := by
  have hgcnt := toNat_ofNat_gcnt m
  subst heq
  exact
    { inv := hu
      vstate := by rw [if_neg hlast]; exact h.loading hk
      cfg := h.cfg
      len := h.len
      wDone := (h.inv.toNat_wDone_succ (h.loading hk)).trans (congrArg (· + 1) h.wDone)
      inbox := rfl
      buffer := fun j hj => (h.buffer_set hk hm j (hj.trans_eq hgcnt)).trans (groupAt_get ws _ j)
      records := h.records
      running := h.running }

/-- The record that a closing word writes is its group's. -/
theorem LoadProgress.closingRecord_eq {m : Fin 4} (hk : k < ws.length) (hm : m.val = t.gcnt.toNat)
    (hc : m.val + 1 = 4 ∨ k + 1 = ws.length) :
    closingRecord m (wordAt ws k) t =
      makeBlock s.cfg.impl (groupAt ws t.bidx.toNat) (groupSize ws t.bidx.toNat) (t.running.extractLsb' 0 40) := by
  have hsize : groupSize ws t.bidx.toNat = m.val + 1 := by
    have hwd := h.wDone_eq hk
    unfold groupSize
    omega
  rw [closingRecord, h.cfg, hsize]
  exact makeBlock_congr _ _ (h.buffer_set hk hm)

include hlength in
/-- A word that closes its group. -/
theorem LoadProgress.closed {m : Fin 4} (hk : k < ws.length) (hm : m.val = t.gcnt.toNat)
    (hc : m.val + 1 = 4 ∨ k + 1 = ws.length) {u : State} (hu : u.Inv)
    (heq : u = ({ closedGroup (m.val + 1) (takeWord m (wordAt ws k) (t.taking (remaining s ws (k + 1)))) with
      vstate := if t.wDone + 1#35 = t.wTotal then .ready else .loading } : State).answering .ok 0#64) :
    LoadProgress s n ws (k + 1) u := by
  have hv := h.loading hk
  have hbidx := h.inv.toNat_bidx_succ hv
  have hrec := h.closingRecord_eq hk hm hc
  have hoff : (t.running.extractLsb' 0 40).toNat = onesIn (ws.take (4 * t.bidx.toNat)) :=
    (h.inv.toNat_offset hv).trans h.running
  subst heq
  refine
    { inv := hu
      vstate := if_congr (h.last_iff hlength hk) rfl rfl
      cfg := h.cfg
      len := h.len
      wDone := (h.inv.toNat_wDone_succ hv).trans (congrArg (· + 1) h.wDone)
      inbox := rfl
      buffer := fun j hj => absurd hj (Nat.not_lt_zero _)
      records := fun q hq => ?_
      running := ?_ }
  · have hq' : q < t.bidx.toNat + 1 := hq.trans_eq hbidx
    obtain rfl | hlt : q = t.bidx.toNat ∨ q < t.bidx.toNat := by omega
    · exact ⟨_, hoff, (BlockStore.read_write_same _ _ _).trans (congrArg some hrec)⟩
    · obtain ⟨offset, hoffset, hread⟩ := h.records q hlt
      exact ⟨offset, hoffset, (BlockStore.read_write_other _ _ hlt.ne).trans hread⟩
  · calc (closedGroup (m.val + 1) (takeWord m (wordAt ws k) t)).running.toNat
        = onesIn (ws.take (4 * t.bidx.toNat)) + (closingRecord m (wordAt ws k) t).ones := by
          rw [h.inv.toNat_closedGroup_running hv, h.running]
      _ = onesIn (ws.take (4 * (t.bidx.toNat + 1))) := by rw [hrec, onesIn_take_group ws t.bidx.toNat]
      _ = onesIn (ws.take (4 * (t.bidx + 1#33).toNat)) := by rw [hbidx]

include hlength in
/-- Every LOAD_WORD of the load takes one more word. -/
theorem LoadProgress.step (hk : k < ws.length) : ∃ u, step t = .next u ∧ LoadProgress s n ws (k + 1) u := by
  obtain ⟨u, hstep⟩ := h.inv.exists_step_eq_next
  refine ⟨u, hstep, ?_⟩
  have hu := everyStepKeepsTheInvariant t u h.inv hstep
  have hv := h.loading hk
  obtain ⟨m, hm⟩ : ∃ m : Fin 4, m.val = t.gcnt.toNat := ⟨⟨t.gcnt.toNat, Nat.lt_succ_of_le h.inv.gcnt_le⟩, rfl⟩
  have hlast := h.last_iff hlength hk
  rw [h.step_eq hk] at hstep
  by_cases hc : m.val + 1 = 4 ∨ k + 1 = ws.length
  · have hexec := (h.inv.taking (remaining s ws (k + 1))).exec_loadWord_of_closing hv hm (wordAt ws k)
      (hc.imp_right hlast.mpr)
    exact h.closed hlength hk hm hc hu (Host.Outcome.next.inj (hstep.symm.trans hexec))
  · push Not at hc
    obtain ⟨h4, hne⟩ := hc
    have hexec := exec_loadWord_of_room (s := t.taking (remaining s ws (k + 1))) hv hm (wordAt ws k)
      (fun hw => hne (hlast.mp hw)) h4
    exact h.buffered hk hm hne hu (Host.Outcome.next.inj (hstep.symm.trans hexec))

end

theorem LoadProgress.run {s : State} {n : Word} {ws : List Word} (hlength : ws.length = wordsOf n.toNat) {j k : Nat}
    {t : State} (h : LoadProgress s n ws k t) (hj : k + j = ws.length) :
    ∃ u, Host.Core.run Sys2Proof.core j t = .next u ∧ LoadProgress s n ws ws.length u := by
  induction j generalizing k t with
  | zero =>
    obtain rfl : k = ws.length := hj
    exact ⟨t, rfl, h⟩
  | succ j ih =>
    obtain ⟨u, hstep, hu⟩ := h.step hlength (by omega)
    rw [run_succ_of_next hstep]
    exact ih hu (by omega)

/-! ### A whole load -/

section
variable {s : State} {n : Word} {ws : List Word} (h : s.Inv) (hv : s.vstate = .empty)
  (hn : n.toNat ≤ 256 * s.cfg.maxBlocks) (hlength : ws.length = wordsOf n.toNat) (hpos : 0 < n.toNat)
include h hv hn hlength hpos

/-- LOAD_BEGIN begins the load with no word taken. -/
theorem exists_step_loadBegin :
    ∃ t, step (sendScript s (loadRequests n ws)) = .next t ∧ LoadProgress s n ws 0 t := by
  obtain ⟨-, hmax⟩ := h.config_legal
  have hin : (sendScript s (loadRequests n ws)).inbox = .request (encode (.loadBegin n)) :: remaining s ws 0 := by
    simp [loadRequests, remaining, Function.comp_def]
  have hstep := step_of_instr hin (encodeThenDecodeGivesTheCommand (.loadBegin n) rfl)
  have hexec := exec_loadBegin_of_le (s := (sendScript s (loadRequests n ws)).taking (remaining s ws 0)) hv hn
  have hinv : (sendScript s (loadRequests n ws)).Inv := { h with }
  have hwords : 0 < ws.length := by
    rw [hlength, wordsOf]
    omega
  refine ⟨_, hstep.trans hexec,
    { inv := everyStepKeepsTheInvariant _ _ hinv (hstep.trans hexec)
      vstate := by rw [if_neg hwords.ne]; exact if_neg hpos.ne'
      cfg := rfl
      len := toNat_ofNat_len (by omega)
      wDone := rfl
      inbox := rfl
      buffer := fun j hj => absurd hj (Nat.not_lt_zero _)
      records := fun q hq => absurd hq (Nat.not_lt_zero _)
      running := rfl }⟩

theorem exists_run_load :
    ∃ t, Host.Core.run Sys2Proof.core (1 + ws.length) (sendScript s (loadRequests n ws)) = .next t ∧
      LoadProgress s n ws ws.length t := by
  obtain ⟨u, hstep, hu⟩ := exists_step_loadBegin h hv hn hlength hpos
  rw [Nat.add_comm, run_succ_of_next hstep]
  exact hu.run hlength (Nat.zero_add _)

end

/-- When the last word is taken the unit is READY and holds every group. -/
theorem LoadProgress.ready {s t : State} {n : Word} {ws : List Word} (h : LoadProgress s n ws ws.length t) :
    t.vstate = .ready := by
  rw [h.vstate, if_pos rfl]

/-- Settles O31: LOAD_BEGIN and then every LOAD_WORD keep `LoadProgress`. -/
theorem completedLoadHoldsTheEncodedGroups : Obligations.CompletedLoadHoldsTheEncodedGroups := by
  intro s n ws h hv hpos hn hlength
  obtain ⟨t, hrun, ht⟩ := exists_run_load h hv hn hlength hpos
  have hbidx := ht.inv.bidx_eq_nb (.inr ht.ready)
  refine ⟨t, hrun, ht.inv, ht.ready, ht.len, by rw [ht.inbox]; simp [remaining], fun q hq => ?_, ?_⟩
  · exact ht.records q (by rwa [hbidx])
  · have hall : ws.length ≤ 4 * t.bidx.toNat := by
      rw [hbidx, ht.inv.nb_eq, ht.len, hlength, blocksOf]
      omega
    rw [ht.running, List.take_of_length_le hall]

/-- The bits of the stored groups are those of the loaded words (43_query.md R94). -/
theorem LoadProgress.bit_eq {s t : State} {n : Word} {ws : List Word} (h : LoadProgress s n ws ws.length t) {i : Nat}
    (hi : i < n.toNat) : t.store.bit i = loadedBit ws i := by
  have hlt : i / 256 < t.bidx.toNat := by
    rw [h.inv.bidx_eq_nb (.inr h.ready)]
    exact h.inv.blockIndex_lt_nb (by rwa [h.len])
  obtain ⟨offset, -, hread⟩ := h.records (i / 256) hlt
  have hm : (wordIndex i).val = i % 256 % 256 / 64 := by
    simp only [wordIndex]
    omega
  have hword : 4 * (i / 256) + (wordIndex i).val = i / 64 := by
    simp only [wordIndex]
    omega
  rw [BlockStore.bit_eq hread, BlockRecord.bit_eq _ hm, makeBlock_payload, padded_groupAt, groupAt_get, hword,
    loadedBit, Nat.mod_mod_of_dvd _ (by decide)]

/-- Settles O32: the stored bits are the loaded ones, and the queries answer the stored ones. -/
theorem loadedVectorAnswersQueries : Obligations.LoadedVectorAnswersQueries := by
  intro s n ws h hv hpos hn hlength
  obtain ⟨t, hrun, ht⟩ := exists_run_load h hv hn hlength hpos
  refine ⟨t, hrun, fun i hi => ?_, fun i hi => ?_⟩
  · rw [← ht.bit_eq hi]
    exact ht.inv.exec_access ht.ready (by rwa [ht.len])
  · rw [← countTrue_congr fun p hp => ht.bit_eq (hp.trans_le hi)]
    exact ht.inv.exec_rank1 ht.ready (by rwa [ht.len])

end Sys2Proof.Machine
end

section
/-! SUPPORT. Proofs of the statements about the assembler (30_encoding.md R65, R66): what a line reads as, what a number
reads as, and the requests of each line. -/

namespace Sys2Proof.Machine

open Sys2Proof.Laws

/-! ### Expansions -/

/-- Settles O11: each expansion is written out, and LOAD checks its word count first. -/
theorem pseudoInstructionsExpand : Obligations.PseudoInstructionsExpand :=
  ⟨rfl, rfl, fun _ => rfl, fun _ _ h => if_pos h, fun _ _ h => if_neg h, fun _ _ _ _ _ _ => rfl⟩

/-! ### Every request is of the opcode map -/

theorem not_reservedOpc_opcode (i : Instr) : ¬ReservedOpc i.opcode.toNat := by
  cases i <;> simp [Instr.opcode, ReservedOpc]

theorem not_reservedOpc_of_formOf {m : List Char} {opc : BitVec 8} {form : Form} (h : formOf m = some (opc, form)) :
    ¬ReservedOpc opc.toNat := by
  have hforms : ∀ row ∈ commandForms, ¬ReservedOpc row.2.1.toNat := by
    unfold ReservedOpc
    decide
  obtain ⟨row, hfind, hrow⟩ := Option.map_eq_some_iff.mp h
  have hnot := hforms row (List.mem_of_find?_eq_some hfind)
  rwa [hrow] at hnot

theorem fillForm_cmd {opc : BitVec 8} {form : Form} {ops : List (List Char)} {r : Request}
    (h : fillForm opc form ops = some r) : ∃ f, r.cmd = commandWord opc f := by
  unfold fillForm at h
  split at h
  · cases h
    exact ⟨_, rfl⟩
  · obtain ⟨v, -, rfl⟩ := Option.map_eq_some_iff.mp h
    exact ⟨v, rfl⟩
  · obtain ⟨v, -, rfl⟩ := Option.map_eq_some_iff.mp h
    exact ⟨_, rfl⟩
  · split at h
    · cases h
      exact ⟨_, rfl⟩
    · cases h
  · cases h

theorem assembleLine_opcodeMap {line : String} {rs : List Request} (h : assembleLine line = some rs) :
    ∀ r ∈ rs, r.cmd.z = 0#5 ∧ ¬ReservedOpc r.cmd.opc.toNat := by
  intro r hr
  unfold assembleLine at h
  split at h
  · cases h
  split at h
  · cases h
  split at h
  next opc form hform =>
    obtain ⟨r', hfill, rfl⟩ := Option.map_eq_some_iff.mp h
    obtain rfl := List.mem_singleton.mp hr
    obtain ⟨f, hcmd⟩ := fillForm_cmd hfill
    obtain ⟨hopc, hz, -⟩ := commandWord_fields opc f
    rw [hcmd, hopc]
    exact ⟨hz, not_reservedOpc_of_formOf hform⟩
  next =>
    split at h
    · obtain ⟨is, -, rfl⟩ := Option.map_eq_some_iff.mp h
      obtain ⟨i, -, rfl⟩ := List.mem_map.mp hr
      obtain ⟨hopc, hz, -⟩ := encodedFields_of i
      rw [hopc]
      exact ⟨hz, not_reservedOpc_opcode i⟩
    · cases h

/-! ### A line written out -/

theorem PlainWord.ne_hash {w : List Char} (h : PlainWord w) : ∀ c ∈ w, c ≠ '#' := by
  intro c hc
  obtain ⟨-, -, -, hhash⟩ := h.2 c hc
  exact hhash

theorem lexemes_plainWord {w : List Char} (h : PlainWord w) : lexemes [] w = [w] := by
  have happend := lexemes_append h.2 [] []
  simpa [lexemes, h.1] using happend

/-- A word before a comma is read, and the blank after the comma is dropped. -/
theorem lexemes_plainWord_comma {w : List Char} (h : PlainWord w) (rest : List Char) :
    lexemes [] (w ++ ',' :: ' ' :: rest) = w :: [','] :: lexemes [] rest := by
  rw [lexemes_append h.2]
  simp [lexemes, h.1, flush]

theorem lexemes_plainWord_blank {w : List Char} (h : PlainWord w) (rest : List Char) :
    lexemes [] (w ++ ' ' :: rest) = w :: lexemes [] rest := by
  rw [lexemes_append h.2]
  simp [lexemes, h.1, flush]

theorem lexemes_operands {ops : List (List Char)} (h : ∀ t ∈ ops, PlainWord t) :
    lexemes [] (ops.intersperse [',', ' ']).flatten = ops.intersperse [','] := by
  induction ops with
  | nil => rfl
  | cons t ops ih =>
    have ht := h t (by simp)
    cases ops with
    | nil => simpa using lexemes_plainWord ht
    | cons u ops =>
      rw [List.intersperse_cons_cons, List.intersperse_cons_cons, ← ih fun v hv => h v (by simp [hv]),
        ← lexemes_plainWord_comma ht]
      simp

theorem ne_hash_of_mem_operands {ops : List (List Char)} (h : ∀ t ∈ ops, PlainWord t) :
    ∀ c ∈ (ops.intersperse [',', ' ']).flatten, c ≠ '#' := by
  induction ops with
  | nil => simp
  | cons t ops ih =>
    have ht : ∀ c ∈ t, c ≠ '#' := (h t (by simp)).ne_hash
    cases ops with
    | nil => simpa using ht
    | cons u ops =>
      have hrest := ih fun v hv => h v (by simp [hv])
      rw [List.intersperse_cons_cons]
      simp only [List.flatten_cons, List.mem_append, List.mem_cons, List.not_mem_nil, or_false]
      rintro c (hc | (rfl | rfl) | hc)
      · exact ht c hc
      · decide
      · decide
      · exact hrest c hc

theorem lineHolds_lineText {mnemonic : String} {ops : List (List Char)} (comment : List Char)
    (hm : PlainWord mnemonic.toList) (h : ∀ t ∈ ops, PlainWord t) :
    LineHolds (lineText mnemonic ops comment) mnemonic ops := by
  have hplain : ∀ c ∈ mnemonic.toList ++ ' ' :: (ops.intersperse [',', ' ']).flatten, (c != '#') = true := by
    simp only [List.mem_append, List.mem_cons, bne_iff_ne]
    rintro c (hc | rfl | hc)
    · exact hm.ne_hash c hc
    · decide
    · exact ne_hash_of_mem_operands h c hc
  have htext : withoutComment (lineText mnemonic ops comment).toList =
      mnemonic.toList ++ ' ' :: (ops.intersperse [',', ' ']).flatten := by
    rw [lineText, String.toList_ofList, withoutComment, List.takeWhile_append_of_pos hplain]
    simp
  rw [LineHolds, lineWords, htext, lexemes_plainWord_blank hm, lexemes_operands h]

/-! ### Numbers -/

/-- Digits below the base read as the number they stand for. -/
theorem digitsFrom_map {α : Type} {base : Nat} {char : α → Char} {val : α → Nat}
    (hchar : ∀ d, hexDigit (char d) = some (val d)) (hval : ∀ d, val d < base) (ds : List α) (acc : Nat) :
    digitsFrom base acc (ds.map char) = some ((ds.map val).foldl (fun v d => base * v + d) acc) := by
  induction ds generalizing acc with
  | nil => rfl
  | cons d ds ih =>
    rw [List.map_cons, digitsFrom, hchar]
    simp only [if_pos (hval d), List.map_cons, List.foldl_cons, Nat.mul_comm base acc]
    exact ih _

theorem digits_map {α : Type} {base : Nat} {char : α → Char} {val : α → Nat}
    (hchar : ∀ d, hexDigit (char d) = some (val d)) (hval : ∀ d, val d < base) {ds : List α} (hds : ds ≠ []) :
    digits base (ds.map char) = some (digitsValue base (ds.map val)) := by
  cases ds with
  | nil => exact absurd rfl hds
  | cons d ds => exact digitsFrom_map hchar hval (d :: ds) 0

theorem digits_decimal {ds : List (Fin 10)} (hds : ds ≠ []) :
    digits 10 (ds.map decimalChar) = some (digitsValue 10 (ds.map Fin.val)) :=
  digits_map hexDigit_decimalChar (fun d => d.isLt) hds

theorem decimalChar_ne : ∀ d : Fin 10, decimalChar d ≠ '-' ∧ decimalChar d ≠ 'x' := by decide

/-- Decimal digits are read by the last case of `argOperand`: they hold no sign and no `x`. -/
theorem argOperand_decimal {ds : List (Fin 10)} (hds : ds ≠ []) :
    argOperand (ds.map decimalChar) =
      if digitsValue 10 (ds.map Fin.val) < 2 ^ 64 then some (BitVec.ofNat 64 (digitsValue 10 (ds.map Fin.val)))
      else none := by
  unfold argOperand
  split
  case h_1 htext =>
    obtain ⟨d, -, hd⟩ := List.mem_map.mp (htext ▸ List.mem_cons_self)
    exact absurd hd (decimalChar_ne d).1
  case h_2 htext =>
    obtain ⟨d, -, hd⟩ := List.mem_map.mp (htext ▸ List.mem_cons_of_mem _ List.mem_cons_self)
    exact absurd hd (decimalChar_ne d).2
  case h_3 => simp only [digits_decimal hds]

theorem numbersRead : NumbersRead := by
  refine ⟨fun ds v hds hv => ⟨?_, ?_, ?_⟩, fun hs v hhs hv => ?_⟩
  · simp only [fieldOperand, digits_decimal hds, hv]
    rfl
  · rw [argOperand_decimal hds, hv]
  · simp only [argOperand, digits_decimal hds, hv, BitVec.ofInt_neg, BitVec.ofInt_natCast]
  · have hhex := digits_map (char := fun h : Bool × Fin 16 => hexChar h.1 h.2) (val := fun h => h.2.val)
      (fun h => hexDigit_hexChar h.1 h.2) (fun h => h.2.isLt) hhs
    simp only [argOperand, hhex, hv]

/-! ### Command lines -/

section
variable {line m : String} {opc : BitVec 8} {a f : List Char} {v : FField} {w : Word}

theorem assembleLine_bare (hf : formOf m.toList = some (opc, .bare)) (h : LineHolds line m []) :
    assembleLine line = some [{ cmd := commandWord opc 0#3, arg := 0#64 }] :=
  assembleLine_of_form h (by simp) hf

theorem assembleLine_arg (hf : formOf m.toList = some (opc, .arg)) (ha : argOperand a = some w)
    (h : LineHolds line m [a]) : assembleLine line = some [{ cmd := commandWord opc 0#3, arg := w }] := by
  rw [assembleLine_of_form h (by simp [argOperand_ne_comma ha]) hf]
  simp [fillForm, ha]

theorem assembleLine_field (hf : formOf m.toList = some (opc, .field)) (hv : fieldOperand f = some v)
    (h : LineHolds line m [f]) :
    assembleLine line = some [{ cmd := (opc ++ 0#8) ||| v.setWidth 16, arg := 0#64 }] := by
  rw [assembleLine_of_form h (by simp [fieldOperand_ne_comma hv]) hf, ← commandWord_eq_or]
  simp [fillForm, hv]

theorem assembleLine_fieldArg (hf : formOf m.toList = some (opc, .fieldArg)) (hv : fieldOperand f = some v)
    (ha : argOperand a = some w) (h : LineHolds line m [f, a]) :
    assembleLine line = some [{ cmd := (opc ++ 0#8) ||| v.setWidth 16, arg := w }] := by
  rw [assembleLine_of_form h (by simp [fieldOperand_ne_comma hv, argOperand_ne_comma ha]) hf, ← commandWord_eq_or]
  simp [fillForm, hv, ha]

end

theorem commandLinesAssemble : CommandLinesAssemble := by
  refine ⟨fun _ => assembleLine_bare (opc := 0x00#8) rfl, fun _ => assembleLine_bare (opc := 0x01#8) rfl,
    fun _ => assembleLine_bare (opc := 0x20#8) rfl, fun _ => assembleLine_bare (opc := 0x30#8) rfl,
    fun line a w ha => ?_, fun line f v hv => ?_, fun line f a v w hv ha => ?_⟩
  · exact ⟨assembleLine_arg (opc := 0x02#8) rfl ha, assembleLine_arg (opc := 0x03#8) rfl ha,
      assembleLine_arg (opc := 0x10#8) rfl ha, assembleLine_arg (opc := 0x12#8) rfl ha,
      assembleLine_arg (opc := 0x21#8) rfl ha, assembleLine_arg (opc := 0x22#8) rfl ha⟩
  · exact ⟨assembleLine_field (opc := 0x13#8) rfl hv, assembleLine_field (opc := 0x14#8) rfl hv⟩
  · exact ⟨assembleLine_fieldArg (opc := 0x11#8) rfl hv ha, assembleLine_fieldArg (opc := 0x23#8) rfl hv ha⟩

/-! ### Lines of pseudo-instructions -/

theorem ne_comma_of_map {ops : List (List Char)} {ws : List Word} (h : ops.map argOperand = ws.map some) :
    ∀ t ∈ ops, t ≠ [','] := by
  intro t ht
  have hmem : argOperand t ∈ ws.map some := h ▸ List.mem_map_of_mem ht
  obtain ⟨w, -, hw⟩ := List.mem_map.mp hmem
  exact argOperand_ne_comma hw.symm

theorem encode_encode (count : FField) :
    encode (.encode count) = { cmd := 0x1300#16 ||| count.setWidth 16, arg := 0#64 } :=
  congrArg (Request.mk · 0#64) (encode_encode_cmd count)

theorem expand_load_encode (bits : Word) (ws : List Word) :
    (Pseudo.expand (.load bits ws)).map (fun is => is.map encode) =
      if ws.length = (bits.toNat + 63) / 64 then some (loadRequests bits ws) else none := by
  obtain ⟨-, -, -, hload, hrefused, -⟩ := pseudoInstructionsExpand
  by_cases h : ws.length = (bits.toNat + 63) / 64
  · rw [if_pos h, hload bits ws h]
    simp [loadRequests]
  · rw [if_neg h, hrefused bits ws h]
    rfl

theorem expand_makeBlock_encode (count : FField) (off w0 w1 w2 w3 : Word) :
    (Pseudo.expand (.makeBlock count off w0 w1 w2 w3)).map (fun is => is.map encode) =
      some [{ cmd := 0x1100#16, arg := w0 }, { cmd := 0x1101#16, arg := w1 }, { cmd := 0x1102#16, arg := w2 },
        { cmd := 0x1103#16, arg := w3 }, { cmd := 0x1200#16, arg := off },
        { cmd := 0x1300#16 ||| count.setWidth 16, arg := 0#64 }] := by
  simp [Pseudo.expand, encode_stageWord, encode_stageOffset, encode_encode]

theorem pseudoLinesAssemble : PseudoLinesAssemble := by
  refine ⟨fun line h => assembleLine_of_pseudo h (by simp) rfl (p := .create) rfl,
    fun line h => assembleLine_of_pseudo h (by simp) rfl (p := .destroy) rfl, fun line a w h ha => ?_,
    fun line ops bits ws h hops => ?_, fun line c ops count off w0 w1 w2 w3 h hc hops => ?_⟩
  · have hp : pseudoOf "COUNT_ONES".toList [a] = some (.countOnes w) := by
      simp [pseudoOf, allArgs, ha]
    rw [assembleLine_of_pseudo h (by simp [argOperand_ne_comma ha]) rfl hp, Pseudo.expand, Option.map_some,
      List.map_singleton, encode_popcnt]
  · have hargs : ops.map argOperand = (bits :: ws).map some := hops
    have hp : pseudoOf "LOAD".toList ops = some (.load bits ws) := by
      simp [pseudoOf, allArgs_of_map hargs]
    rw [assembleLine_of_pseudo h (ne_comma_of_map hargs) rfl hp, expand_load_encode]
  · have hargs : ops.map argOperand = [off, w0, w1, w2, w3].map some := hops
    have hcomma : ∀ t ∈ c :: ops, t ≠ [','] :=
      List.forall_mem_cons.mpr ⟨fieldOperand_ne_comma hc, ne_comma_of_map hargs⟩
    have hp : pseudoOf "MAKE_BLOCK".toList (c :: ops) = some (.makeBlock count off w0 w1 w2 w3) := by
      simp [pseudoOf, hc, allArgs_of_map hargs]
    rw [assembleLine_of_pseudo h hcomma rfl hp, expand_makeBlock_encode]

/-- Settles O12: a command's line fills its form of the opcode map, and a pseudo-instruction's line encodes its
expansion. -/
theorem assembledWordsUseTheOpcodeMap : Obligations.AssembledWordsUseTheOpcodeMap :=
  ⟨fun _ _ => assembleLine_opcodeMap, fun _ _ comment => lineHolds_lineText comment, numbersRead, commandLinesAssemble,
    pseudoLinesAssemble⟩

end Sys2Proof.Machine
end
